-- ==== Sys2Proof/Word.lean ====
section
/-! DEFINITION. The word and byte types of popcount_unit (00_scope.md R7, R10, R14). -/

namespace Sys2Proof

/-- A word: "a fixed-width (64-bit) unsigned integer, the unit of operation for all primitives" (R7).
Bit 0 is the least significant bit (R10). -/
abbrev Word := BitVec 64

/-- A byte of a word, of a byte-wide ROM table or of a byte-serial link (R14, R43, R44). -/
abbrev Byte := BitVec 8

end Sys2Proof
end

