-- ==== Sys2Proof/Syntax.lean ====
section
/-! DEFINITION. What is said to the unit and what it answers: operations, requests, responses, instructions
(30_encoding.md), and the host's program and assembler notation (R74 to R76). -/

namespace Sys2Proof

/-- The eleven tables and constants of the ROM, in the order of their ids 0..10 (20_memory.md R41). -/
inductive TableId where
  | allSet | deBruijn64 | ltDeBruijnToIdx | ltFib | ltCnt | ltHi | ltLo | loSet | loUnset | ltSel | psOverflow
  deriving DecidableEq, Repr

/-- Every table, by increasing id. -/
def TableId.all : List TableId :=
  [.allSet, .deBruijn64, .ltDeBruijnToIdx, .ltFib, .ltCnt, .ltHi, .ltLo, .loSet, .loUnset, .ltSel, .psOverflow]

/-- The 23 operations of the opcode map (30_encoding.md R68); `trd t` is the table read of table `t`. -/
inductive Op where
  | cnt | cnt32 | cnt8 | hi | lo | cnt11 | cnt11c | cnt10c | cnt01c | map10 | map01 | sel
  | trd (t : TableId)
  deriving DecidableEq, Repr

/-- Every operation, in the order of the opcode map. -/
def Op.all : List Op :=
  [.cnt, .cnt32, .cnt8, .hi, .lo, .cnt11, .cnt11c, .cnt10c, .cnt01c, .map10, .map01, .sel]
    ++ TableId.all.map .trd

/-- A request (R61): operation code, word operand, index operand, carry-in. -/
structure Request where
  cmd : BitVec 8
  a   : Word
  b   : Word
  cin : Bool
  deriving DecidableEq, Repr

/-- The status codes of a response (60_exceptions.md R200). -/
inductive Status where
  | ok | illegalOp | selRange | tableRange
  deriving DecidableEq, Repr

/-- A response (R63): result word, carry-out, status. -/
structure Response where
  y      : Word
  cout   : Bool
  status : Status
  deriving DecidableEq, Repr

/-- An instruction: one operation with the operands its row of R69 reads, one constructor per row of
opcode_table.json. `a` is the word x, `c` the carry-in, `i` SEL's index, `k` a table index; each is as wide
as its request field. CNT32 and CNT8 hold the whole of `a`, of which they read the low bits. -/
inductive Instr where
  | cnt         (a : Word)
  | cnt32       (a : Word)
  | cnt8        (a : Word)
  | hi          (a : Word)
  | lo          (a : Word)
  | cnt11       (a : Word)
  | cnt11c      (a : Word) (c : Bool)
  | cnt10c      (a : Word) (c : Bool)
  | cnt01c      (a : Word) (c : Bool)
  | map10       (a : Word) (c : Bool)
  | map01       (a : Word) (c : Bool)
  | sel         (a : Word) (i : Word)
  | trdAllset   (k : Word)
  | trdDebruijn (k : Word)
  | trdDb2idx   (k : Word)
  | trdFib      (k : Word)
  | trdCnt      (k : Word)
  | trdHi       (k : Word)
  | trdLo       (k : Word)
  | trdLoset    (k : Word)
  | trdLounset  (k : Word)
  | trdSel      (k : Word)
  | trdPsovf    (k : Word)
  deriving DecidableEq, Repr

/-- An operand of a line of a host program: a literal, or `@n.y` or `@n.cout`, a field of the response to
the `n`-th request of the same port, counted from 1 (R76). -/
inductive Operand where
  | lit    (v : Word)
  | yOf    (n : Nat)
  | coutOf (n : Nat)
  deriving DecidableEq, Repr

/-- A line of a host program: a request whose operands the host resolves before it issues it (R76). -/
structure Line where
  cmd : BitVec 8
  a   : Operand
  b   : Operand
  cin : Operand
  deriving DecidableEq, Repr

/-- The line that offers exactly the request `r`. -/
def Line.ofRequest (r : Request) : Line :=
  { cmd := r.cmd, a := .lit r.a, b := .lit r.b, cin := .lit (if r.cin then 1 else 0) }

/-- The names an assembler line may begin with: an operation's mnemonic (R68), or one of the
pseudo-instructions of R75 that is no mnemonic. -/
inductive AsmName where
  | op (o : Op)
  | cnt10
  | cnt01
  | trd
  deriving DecidableEq, Repr

/-- A written operand: a number, a reference, or a table's name of section 3 of the source (R74 to R76). -/
inductive AsmOperand where
  | num    (n : Nat)
  | yOf    (n : Nat)
  | coutOf (n : Nat)
  | table  (t : TableId)
  deriving DecidableEq, Repr

/-- `MNEMONIC operands` (R74). -/
structure AsmLine where
  name     : AsmName
  operands : List AsmOperand
  deriving DecidableEq, Repr

end Sys2Proof
end

