-- ==== Sys2Proof/WellFormed.lean ====
section
/-! DEFINITION. Which terms of the syntax are well-formed. The operands of `Instr` are as wide as the request
fields that carry them (30_encoding.md R61), so their types leave nothing to check there; the checks that can
fail are those of the host's program lines and of the assembler notation (R74 to R76). -/

namespace Sys2Proof

/-- Every typed instruction is well-formed: a word operand holds any 64-bit value, a carry is 0 or 1, an
index is any unsigned 64-bit value (R61, R69, R70). One line per constructor, so that a constructor added
later has to say its own check. -/
def Instr.wf : Instr → Bool
  | .cnt _ => true
  | .cnt32 _ => true
  | .cnt8 _ => true
  | .hi _ => true
  | .lo _ => true
  | .cnt11 _ => true
  | .cnt11c _ _ => true
  | .cnt10c _ _ => true
  | .cnt01c _ _ => true
  | .map10 _ _ => true
  | .map01 _ _ => true
  | .sel _ _ => true
  | .trdAllset _ => true
  | .trdDebruijn _ => true
  | .trdDb2idx _ => true
  | .trdFib _ => true
  | .trdCnt _ => true
  | .trdHi _ => true
  | .trdLo _ => true
  | .trdLoset _ => true
  | .trdLounset _ => true
  | .trdSel _ => true
  | .trdPsovf _ => true

/-- Is the reference `@m` a reference to a line before line `n`? "the response of earlier line n" (R76). -/
def refEarlier (n m : Nat) : Bool := 1 ≤ m && m < n

/-- An operand of line `n` refers to earlier lines only. -/
def Operand.wf (n : Nat) : Operand → Bool
  | .lit _ => true
  | .yOf m => refEarlier n m
  | .coutOf m => refEarlier n m

/-- A carry operand of line `n`: a literal carry is 0 or 1, for "`cin` is one bit, so a carry outside
{0, 1} cannot be presented" (R61). -/
def Operand.wfCarry (n : Nat) : Operand → Bool
  | .lit v => v == 0 || v == 1
  | .yOf m => refEarlier n m
  | .coutOf m => refEarlier n m

/-- Line `n` of a host program is well-formed. -/
def Line.wf (n : Nat) (l : Line) : Bool := l.a.wf n && l.b.wf n && l.cin.wfCarry n

/-- A host program whose first line has the number `n` (R76 numbers from 1). -/
def programWf (n : Nat) : List Line → Bool
  | [] => true
  | l :: ls => l.wf n && programWf (n + 1) ls

/-- The roles an assembler operand can have: the word `a`, the index `b`, the carry `cin`, a table name. -/
inductive Slot where
  | a | b | cin | table
  deriving DecidableEq, Repr

/-- The operand forms of R74, and those of the pseudo-instructions of R75: for a name, each list of roles
it may be written with. `CNT10` and `CNT01` have no form without a carry. -/
def AsmName.forms : AsmName → List (List Slot)
  | .op .cnt => [[.a]]
  | .op .cnt32 => [[.a]]
  | .op .cnt8 => [[.a]]
  | .op .hi => [[.a]]
  | .op .lo => [[.a]]
  | .op .cnt11 => [[.a], [.a, .cin]]
  | .op .cnt11c => [[.a, .cin]]
  | .op .cnt10c => [[.a, .cin]]
  | .op .cnt01c => [[.a, .cin]]
  | .op .map10 => [[.a, .cin], [.a]]
  | .op .map01 => [[.a, .cin], [.a]]
  | .op .sel => [[.a, .b]]
  | .op (.trd _) => [[.b]]
  | .cnt10 => [[.a, .cin]]
  | .cnt01 => [[.a, .cin]]
  | .trd => [[.table, .b]]

/-- A written operand of line `n` fits a role. A written number of 2^64 or more fits none, so that its line is no
valid assembly (DESIGN CHOICE, log 14: R74 does not say whether it is refused or truncated). -/
def AsmOperand.fits (n : Nat) : Slot → AsmOperand → Bool
  | .table, .table _ => true
  | .table, _ => false
  | _, .table _ => false
  | .cin, .num v => v ≤ 1
  | _, .num v => v < 2 ^ 64
  | _, .yOf m => refEarlier n m
  | _, .coutOf m => refEarlier n m

/-- Do the operands fit the roles, one to one? -/
def fitsForm (n : Nat) : List Slot → List AsmOperand → Bool
  | [], [] => true
  | s :: ss, o :: os => o.fits n s && fitsForm n ss os
  | _, _ => false

/-- Assembler line `n` is valid: its operands fit one of its name's forms (R74, R75). -/
def AsmLine.wf (n : Nat) (l : AsmLine) : Bool := l.name.forms.any (fitsForm n · l.operands)

end Sys2Proof
end

