-- ==== Sys2Proof/Decode.lean ====
section
/-! DEFINITION. The encoding of requests and responses (30_encoding.md): operation codes, packed and
byte-serial layouts, the decoder and the encoder. -/

namespace Sys2Proof

/-- Why a decoder rejects. `illegalOp`: the operation code is not in the opcode map (R72). The other two
belong to the byte-serial link of 20_memory.md R43: fewer than the 18 bytes of a request, or one of the 7
bits above bit 136 of its last byte set (DESIGN CHOICE, log 10). -/
inductive Reject where
  | illegalOp (cmd : BitVec 8)
  | truncated
  | badPadding
  deriving DecidableEq, Repr

/-- The table id `t` of 20_memory.md R41. -/
def TableId.id : TableId → BitVec 4
  | .allSet => 0
  | .deBruijn64 => 1
  | .ltDeBruijnToIdx => 2
  | .ltFib => 3
  | .ltCnt => 4
  | .ltHi => 5
  | .ltLo => 6
  | .loSet => 7
  | .loUnset => 8
  | .ltSel => 9
  | .psOverflow => 10

/-- The opcode map (R68). A table read is group 0x2 with the table id as its function (R67). -/
def Op.code : Op → BitVec 8
  | .cnt => 0x01
  | .cnt32 => 0x02
  | .cnt8 => 0x03
  | .hi => 0x04
  | .lo => 0x05
  | .cnt11 => 0x06
  | .cnt11c => 0x07
  | .cnt10c => 0x08
  | .cnt01c => 0x09
  | .map10 => 0x0A
  | .map01 => 0x0B
  | .sel => 0x0C
  | .trd t => 0x2#4 ++ t.id

/-- The operation a code names, if it is in the map. "A decoder reads `cmd` alone" (R73). -/
def Op.ofCode (c : BitVec 8) : Option Op := Op.all.find? (fun o => o.code == c)

/-- The table read of table `t` at index `k`. -/
def Instr.ofTable (k : Word) : TableId → Instr
  | .allSet => .trdAllset k
  | .deBruijn64 => .trdDebruijn k
  | .ltDeBruijnToIdx => .trdDb2idx k
  | .ltFib => .trdFib k
  | .ltCnt => .trdCnt k
  | .ltHi => .trdHi k
  | .ltLo => .trdLo k
  | .loSet => .trdLoset k
  | .loUnset => .trdLounset k
  | .ltSel => .trdSel k
  | .psOverflow => .trdPsovf k

/-- The operation with the request fields its row of R69 reads; every other field is dropped (R65). -/
def Op.instr (r : Request) : Op → Instr
  | .cnt => .cnt r.a
  | .cnt32 => .cnt32 r.a
  | .cnt8 => .cnt8 r.a
  | .hi => .hi r.a
  | .lo => .lo r.a
  | .cnt11 => .cnt11 r.a
  | .cnt11c => .cnt11c r.a r.cin
  | .cnt10c => .cnt10c r.a r.cin
  | .cnt01c => .cnt01c r.a r.cin
  | .map10 => .map10 r.a r.cin
  | .map01 => .map01 r.a r.cin
  | .sel => .sel r.a r.b
  | .trd t => Instr.ofTable r.b t

/-- Decode a request: `cmd` selects the operation, or the request is illegal (R68, R72). -/
def decodeRequest (r : Request) : Except Reject Instr :=
  match Op.ofCode r.cmd with
  | some o => .ok (o.instr r)
  | none => .error (.illegalOp r.cmd)

/-- The packed request `{cin, b, a, cmd}`, 137 bits (R61). -/
def Request.pack (r : Request) : BitVec 137 := BitVec.ofBool r.cin ++ r.b ++ r.a ++ r.cmd

/-- The fields of a packed request (R61). -/
def Request.unpack (p : BitVec 137) : Request :=
  { cmd := p.extractLsb' 0 8, a := p.extractLsb' 8 64, b := p.extractLsb' 72 64, cin := p.getLsbD 136 }

/-- The status codes (60_exceptions.md R200). -/
def Status.code : Status → BitVec 2
  | .ok => 0
  | .illegalOp => 1
  | .selRange => 2
  | .tableRange => 3

/-- The status of a code. -/
def Status.ofCode (c : BitVec 2) : Status :=
  if c = 0 then .ok else if c = 1 then .illegalOp else if c = 2 then .selRange else .tableRange

/-- The packed response `{status, cout, y}`, 67 bits (R63). -/
def Response.pack (r : Response) : BitVec 67 := r.status.code ++ BitVec.ofBool r.cout ++ r.y

/-- The fields of a packed response (R63). -/
def Response.unpack (p : BitVec 67) : Response :=
  { y := p.extractLsb' 0 64, cout := p.getLsbD 64, status := Status.ofCode (p.extractLsb' 65 2) }

/-- The first `n` bytes of a packed form, least significant byte first (20_memory.md R43). -/
def toBytes {w : Nat} (n : Nat) (p : BitVec w) : List Byte :=
  (List.range n).map (fun j => p.extractLsb' (8 * j) 8)

/-- The number whose bytes are given least significant first. -/
def ofBytes : List Byte → Nat
  | [] => 0
  | b :: bs => b.toNat + 256 * ofBytes bs

/-- A packed request on a byte-serial link: 18 bytes (R43, R61). The 7 bits of the last byte above bit 136 are sent
as 0 (DESIGN CHOICE, log 10: the spec does not say what they hold). -/
def Request.toBytes (r : Request) : List Byte := Sys2Proof.toBytes 18 r.pack

/-- A packed response on a byte-serial link: 9 bytes (R43, R63). The 5 bits of the ninth byte above bit 66 are sent
as 0 (DESIGN CHOICE, log 10: the spec does not say what they hold). -/
def Response.toBytes (r : Response) : List Byte := Sys2Proof.toBytes 9 r.pack

/-- The request at the head of a byte stream, and the bytes after it. -/
def readRequest (bs : List Byte) : Except Reject (Request × List Byte) :=
  if bs.length < 18 then .error .truncated
  else if 2 ^ 137 ≤ ofBytes (bs.take 18) then .error .badPadding
  else .ok (Request.unpack (BitVec.ofNat 137 (ofBytes (bs.take 18))), bs.drop 18)

/-- Decode the instruction at the head of a byte stream. -/
def decode (bs : List Byte) : Except Reject (Instr × List Byte) :=
  match readRequest bs with
  | .error e => .error e
  | .ok (r, rest) =>
    match decodeRequest r with
    | .error e => .error e
    | .ok i => .ok (i, rest)

/-- The request an instruction is encoded as; "an operand the row does not list is encoded as 0" (R74). -/
def encodeRequest : Instr → Request
  | .cnt a => ⟨Op.cnt.code, a, 0, false⟩
  | .cnt32 a => ⟨Op.cnt32.code, a, 0, false⟩
  | .cnt8 a => ⟨Op.cnt8.code, a, 0, false⟩
  | .hi a => ⟨Op.hi.code, a, 0, false⟩
  | .lo a => ⟨Op.lo.code, a, 0, false⟩
  | .cnt11 a => ⟨Op.cnt11.code, a, 0, false⟩
  | .cnt11c a c => ⟨Op.cnt11c.code, a, 0, c⟩
  | .cnt10c a c => ⟨Op.cnt10c.code, a, 0, c⟩
  | .cnt01c a c => ⟨Op.cnt01c.code, a, 0, c⟩
  | .map10 a c => ⟨Op.map10.code, a, 0, c⟩
  | .map01 a c => ⟨Op.map01.code, a, 0, c⟩
  | .sel a i => ⟨Op.sel.code, a, i, false⟩
  | .trdAllset k => ⟨(Op.trd .allSet).code, 0, k, false⟩
  | .trdDebruijn k => ⟨(Op.trd .deBruijn64).code, 0, k, false⟩
  | .trdDb2idx k => ⟨(Op.trd .ltDeBruijnToIdx).code, 0, k, false⟩
  | .trdFib k => ⟨(Op.trd .ltFib).code, 0, k, false⟩
  | .trdCnt k => ⟨(Op.trd .ltCnt).code, 0, k, false⟩
  | .trdHi k => ⟨(Op.trd .ltHi).code, 0, k, false⟩
  | .trdLo k => ⟨(Op.trd .ltLo).code, 0, k, false⟩
  | .trdLoset k => ⟨(Op.trd .loSet).code, 0, k, false⟩
  | .trdLounset k => ⟨(Op.trd .loUnset).code, 0, k, false⟩
  | .trdSel k => ⟨(Op.trd .ltSel).code, 0, k, false⟩
  | .trdPsovf k => ⟨(Op.trd .psOverflow).code, 0, k, false⟩

/-- The bytes of an instruction's packed request. -/
def encode (i : Instr) : List Byte := (encodeRequest i).toBytes

/-- The request whose packed form has the low `nbits` bits of `w` and zeros above. -/
def requestOfTableWord (nbits w : Nat) : Request := Request.unpack (BitVec.ofNat 137 (w % 2 ^ nbits))

/-- What the decoder reads from the bits `w` of an opcode-table row, laid out as on the byte-serial link
with zeros above bit `nbits`. -/
def decodeTableWord (nbits w : Nat) : Option Instr :=
  match decode (toBytes 18 (BitVec.ofNat 144 (w % 2 ^ nbits))) with
  | .ok (i, _) => some i
  | .error _ => none

end Sys2Proof
end

