-- ==== Sys2Proof/Machine/Flags.lean ====
section
/-! DEFINITION. The unit holds no flags (10_state.md R23). What stands in their place is the carry-out bit of a
response (30_encoding.md R71). -/

namespace Sys2Proof.Machine

/-- The carry-out of CNT11C, CNT10C and CNT01C: `a[63]`, whatever the carry-in (R71; 44_pair_counter.md
R162 to R164). -/
def carryOut (a : Word) : Bool := a.getLsbD 63

/-- The carry-out of every other operation, and of every response whose status is not OK (R71). -/
def noCarry : Bool := false

end Sys2Proof.Machine
end

