-- ==== Sys2Proof/Machine/Operands.lean ====
section
/-! DEFINITION. What the operations make of their operands: counts, positions, the carry-extended windows
(00_scope.md R10 to R14, 44_pair_counter.md R160), as functions of words alone. -/

namespace Sys2Proof.Machine

/-- The number of set bits among bits `0 .. n-1` of `x`. -/
def rank {w : Nat} (x : BitVec w) (n : Nat) : Nat := (List.range n).countP (fun p => x.getLsbD p)

/-- `popcount(v)`: "number of 1 bits in v (mathematical, any width)" (R12). -/
def popcount {w : Nat} (x : BitVec w) : Nat := rank x w

/-- The first position below `w` that satisfies `f`, or 0 where none does. -/
def firstPos (w : Nat) (f : Nat → Bool) : Nat := ((List.range w).find? f).getD 0

/-- The last position below `w` that satisfies `f`, or 0 where none does. -/
def lastPos (w : Nat) (f : Nat → Bool) : Nat := ((List.range w).reverse.find? f).getD 0

/-- The highest set position, 0 for the zero word (43_bit_locate.md R151, with the laws of
R156; 41_constant_tables.md R105). -/
def hiPos {w : Nat} (x : BitVec w) : Nat := lastPos w (fun p => x.getLsbD p)

/-- The lowest set position, 0 for the zero word (43_bit_locate.md R152, with the laws of
R156; 41_constant_tables.md R106). -/
def loPos {w : Nat} (x : BitVec w) : Nat := firstPos w (fun p => x.getLsbD p)

/-- The position of the `k`-th set bit counted from 1: "the p with a[p] = 1 and popcount(a[p:0]) = k"
(46_select_within_word.md R190). Meaningful for `1 <= k <= popcount x`. -/
def selPos {w : Nat} (x : BitVec w) (k : Nat) : Nat :=
  firstPos w (fun p => x.getLsbD p && rank x (p + 1) == k)

/-- `zext_64` of a count or a position (R12, 30_encoding.md R70). -/
def zextNat (n : Nat) : Word := BitVec.ofNat 64 n

/-- `zext_64` of a table byte or of a carry bit (R12, 20_memory.md R41). -/
def zext {w : Nat} (v : BitVec w) : Word := v.setWidth 64

/-- The low half that CNT32 reads, `a[31:0]` (42_word_popcount.md R142). -/
def lowHalf (a : Word) : BitVec 32 := a.extractLsb' 0 32

/-- Byte `j` of a word, `v[8j+7:8j]` (R14). -/
def byteOf (v : Word) (j : Nat) : Byte := v.extractLsb' (8 * j) 8

/-- `xp` of R160: bit i holds the bit before bit i, which for bit 0 is the carry-in. -/
def bitsBefore (a : Word) (c : Bool) : Word := (a <<< 1) ||| zext (BitVec.ofBool c)

/-- Windows showing "11" (R160). -/
def m11 (a : Word) (c : Bool) : Word := bitsBefore a c &&& a

/-- Windows showing "10" (R160): the bit before is 1, the bit is 0 (00_scope.md R13). -/
def m10 (a : Word) (c : Bool) : Word := bitsBefore a c &&& ~~~a

/-- Windows showing "01" (R160). -/
def m01 (a : Word) (c : Bool) : Word := ~~~(bitsBefore a c) &&& a

/-- Windows showing "00" (R160). -/
def m00 (a : Word) (c : Bool) : Word := ~~~(bitsBefore a c) &&& ~~~a

/-- The aligned pairs (bit 2k, bit 2k+1) with both bits set, marked at bit 2k (44_pair_counter.md R161). -/
def alignedPairs (a : Word) : Word := a &&& (a >>> 1) &&& 0x5555555555555555

/-- SEL's range check: `b = 0` or `b >= 65`, compared as unsigned 64-bit values
(46_select_within_word.md R191). -/
def selOutOfRange (i : Word) : Bool := i.toNat == 0 || 65 ≤ i.toNat

end Sys2Proof.Machine
end

