-- ==== Sys2Proof/Config.lean ====
section
/-! DEFINITION. The parameters that 00_scope.md R9 leaves open. Each is a constant with no body, so that no
proof can rest on its value (log 2, log 3). The ROM, whose contents the spec gives, is in Machine/Rom.lean. -/

namespace Sys2Proof

/-- `LATENCY`: cycles from the acceptance of a request to its response, any integer >= 0
(R9, 30_encoding.md R66, 93_implementation_defined.md I6). -/
opaque Config.latency : Nat

/-- `INIT_CYCLES`: cycles from the first cycle with `rst = 0` until `ready` rises, any integer >= 0
(R9, 70_reset_and_hazards.md R232, 93_implementation_defined.md I7). -/
opaque Config.initCycles : Nat

/-- The number of ports beside port 0. -/
opaque Config.extraPorts : Nat

/-- `N_PORTS`: the number of request ports, any integer >= 1 (R9, 60_exceptions.md R222). -/
def Config.nPorts : Nat := Config.extraPorts + 1

/-- `LT_SEL_UNUSED(j, b)`: the byte an implementation stores in the `lt_sel` entry `256*j + b` that the
source calls "undefined/unused"; one fixed value per entry (R9, 41_constant_tables.md R108, I1). -/
opaque Config.ltSelUnused (j b : Nat) : Byte

/-- `SEL_UNDEF`: the source of `draw64()`, the free 64-bit value that SEL returns in its caller-undefined
case; applied to the port's number and to how many draws that port has made before, so that every request
has a value of its own (R9, 46_select_within_word.md R192, I2; DESIGN CHOICE, log 3). -/
opaque Config.selUndef (port draw : Nat) : Word

end Sys2Proof
end

