-- ==== Sys2Proof/Machine/Rom.lean ====
section
/-! DEFINITION. The ROM: the eleven constant tables by their closed forms, which are normative over the listings
(41_constant_tables.md). -/

namespace Sys2Proof.Machine

/-- `LEN(t)` (20_memory.md R41). -/
def tableLen : TableId → Nat
  | .allSet => 1
  | .deBruijn64 => 1
  | .ltDeBruijnToIdx => 64
  | .ltFib => 92
  | .ltCnt => 256
  | .ltHi => 256
  | .ltLo => 256
  | .loSet => 65
  | .loUnset => 65
  | .ltSel => 2048
  | .psOverflow => 65

/-- `all_set` (R100). -/
def allSet : Word := 0xFFFFFFFFFFFFFFFF

/-- `deBruijn64` (R101); the spec marks the value as general knowledge (log 13). -/
def deBruijn64 : Word := 0x0218A392CD3D5DBF

/-- The 6-bit index of an isolated bit (R101): the product with `deBruijn64`, modulo 2^64, shifted right by 58. -/
def deBruijnIdx (isolated : Word) : Nat := ((isolated * deBruijn64) >>> 58).toNat

/-- `lt_deBruijn_to_idx` (R102): the position `p` whose single bit has the index `k`. -/
def ltDeBruijnToIdx (k : Nat) : Byte :=
  BitVec.ofNat 8 (firstPos 64 (fun p => deBruijnIdx ((1 : Word) <<< p) == k))

/-- Two neighbouring Fibonacci numbers, `(lt_fib[n], lt_fib[n+1])` (R103). -/
def fibPair : Nat → Nat × Nat
  | 0 => (1, 2)
  | n + 1 => ((fibPair n).2, (fibPair n).1 + (fibPair n).2)

/-- `lt_fib` (R103): 1, 2, 3, 5, and on. -/
def ltFib (n : Nat) : Word := BitVec.ofNat 64 (fibPair n).1

/-- `lt_cnt` (R104). -/
def ltCnt (b : Nat) : Byte := BitVec.ofNat 8 (popcount (BitVec.ofNat 8 b))

/-- `lt_hi` (R105), with `lt_hi[0] = 0`. -/
def ltHi (b : Nat) : Byte := BitVec.ofNat 8 (hiPos (BitVec.ofNat 8 b))

/-- `lt_lo` (R106), with `lt_lo[0] = 0`. -/
def ltLo (b : Nat) : Byte := BitVec.ofNat 8 (loPos (BitVec.ofNat 8 b))

/-- `lo_set` (R107): the low `i` bits set. -/
def loSet (i : Nat) : Word := BitVec.ofNat 64 (2 ^ i - 1)

/-- `lo_unset` (R107): the complement of `lo_set`. -/
def loUnset (i : Nat) : Word := ~~~(loSet i)

/-- `lt_sel` (R108): entry `256*j + b` is the position of the (j+1)-th set bit of byte `b`, and the
implementation's own fixed byte where there is none. -/
def ltSel (idx : Nat) : Byte :=
  let j := idx / 256
  let b := idx % 256
  if j + 1 ≤ popcount (BitVec.ofNat 8 b) then BitVec.ofNat 8 (selPos (BitVec.ofNat 8 b) (j + 1))
  else Config.ltSelUnused j b

/-- `ps_overflow` (R109): `(128 - i) * 0x0101010101010101`; general knowledge in the spec (log 13). -/
def psOverflow (i : Nat) : Word := BitVec.ofNat 64 ((128 - i) * 0x0101010101010101)

/-- `TblRead(t, k)`: element `k` of table `t`, zero-extended to 64 bits, for `k < LEN(t)`
(00_scope.md R12, 20_memory.md R41). -/
def tblRead (t : TableId) (k : Nat) : Word :=
  match t with
  | .allSet => allSet
  | .deBruijn64 => deBruijn64
  | .ltDeBruijnToIdx => zext (ltDeBruijnToIdx k)
  | .ltFib => ltFib k
  | .ltCnt => zext (ltCnt k)
  | .ltHi => zext (ltHi k)
  | .ltLo => zext (ltLo k)
  | .loSet => loSet k
  | .loUnset => loUnset k
  | .ltSel => zext (ltSel k)
  | .psOverflow => psOverflow k

/-- A table as the read-only sequence of all its elements (20_memory.md R44). -/
def table (t : TableId) : List Word := (List.range (tableLen t)).map (tblRead t)

/-- The raw byte blob of a byte-indexed table, byte `n` being element `n` (R44). No other table has one. -/
def blob : TableId → Option (List Byte)
  | .ltCnt => some ((List.range 256).map ltCnt)
  | .ltHi => some ((List.range 256).map ltHi)
  | .ltLo => some ((List.range 256).map ltLo)
  | .ltSel => some ((List.range 2048).map ltSel)
  | _ => none

end Sys2Proof.Machine
end

