-- ==== Sys2Proof/Machine/State.lean ====
section
/-! DEFINITION. The state of popcount_unit as plain data (10_state.md): the ports, the reset input, and per port
the host's program and record. The ROM is configuration, not state (10_state.md R20, R26). -/

namespace Sys2Proof.Machine

/-- An accepted request's response that has not been delivered: "the responses to requests already accepted
but not yet delivered" (10_state.md R27). `due` counts the cycles until it is presented
(30_encoding.md R66; DEDUCED, log 5). -/
structure InFlight where
  rsp : Response
  due : Nat
  deriving DecidableEq, Repr

/-- What the host does next on a port: let one cycle pass with `req_valid = 0`, or issue a line and hold it
until it is accepted (10_state.md R28, 70_reset_and_hazards.md R233). -/
inductive HostMove where
  | idle
  | offer (l : Line)
  deriving DecidableEq, Repr

/-- One request/response port (10_state.md R30, 60_exceptions.md R222), with the host's side of it. -/
structure Port where
  /-- The readiness bit, which the port shows as `req_ready` (10_state.md R28). -/
  ready : Bool
  /-- Cycles that must still pass before `ready` can rise (70_reset_and_hazards.md R232; log 4). -/
  initLeft : Nat
  /-- The in-flight queue, in acceptance order (10_state.md R27). -/
  inflight : List InFlight
  /-- The response outputs: `none` is `rsp_valid = 0`, when the response fields must not be read;
  `some r` is `rsp_valid = 1` with the fields of `r` (30_encoding.md R66, 10_state.md R29; log 11). -/
  out : Option Response
  /-- How many free values this port has drawn: the model's own field, not the spec's (log 3). -/
  draws : Nat
  /-- The host's program still to be issued on this port, next move first (30_encoding.md R76; log 7). -/
  moves : List HostMove
  /-- The host's record, one entry per accepted request in acceptance order: the response it took, or
  `none` where reset discarded it unanswered (30_encoding.md R76, 10_state.md R29; log 7). -/
  answers : List (Option Response)
  deriving DecidableEq, Repr

/-- The whole machine. The ports in order of their numbers are `served`, then `port`, then `waiting`: within
the running clock cycle the first have had their turn, `port` is next, the last still wait (log 1). -/
structure State where
  /-- The values of the reset input `rst` from this cycle on; 0 where the list ends
  (30_encoding.md R66, 70_reset_and_hazards.md R230; log 6). -/
  rstPin : List Bool
  served : List Port
  port : Port
  waiting : List Port
  deriving DecidableEq, Repr

/-- The unit has no trap and no stop: "No behaviour of this unit is `stuck` or `refuse`"
(93_implementation_defined.md), errors are statuses of responses (60_exceptions.md R206). So no step faults,
and this type has no constructor. -/
inductive Fault where
  deriving DecidableEq, Repr

/-- Why a step has no meaning. -/
inductive Refusal where
  /-- Raised by `exec` for an instruction whose meaning has not been written (safe). No arm raises it: every
  instruction of the opcode table has its meaning. -/
  | notModelled (mnemonic : String)
  deriving DecidableEq, Repr

/-- What a step or a meaning answers. -/
abbrev Outcome := Host.Outcome State Fault Refusal

/-- A port right after reset (10_state.md R29): not ready, nothing in flight, `rsp_valid = 0`. The host has
nothing to issue and has seen nothing, and no free value has been drawn (DESIGN CHOICE, log 3 and log 7). -/
def Port.reset : Port :=
  { ready := false, initLeft := Config.initCycles, inflight := [], out := none, draws := 0,
    moves := [], answers := [] }

/-- The machine right after reset is released, at the start of the first cycle with `rst = 0`:
`N_PORTS` ports (60_exceptions.md R222), each as R29 says (70_reset_and_hazards.md R231). The reset input
stays 0 from then on (DESIGN CHOICE, log 6). -/
def State.reset : State :=
  { rstPin := [], served := [], port := Port.reset,
    waiting := List.replicate Config.extraPorts Port.reset }

/-- All ports, in order of their numbers (R222). -/
def State.ports (s : State) : List Port := s.served ++ s.port :: s.waiting

/-- The number of the port whose turn it is. -/
def State.portNo (s : State) : Nat := s.served.length

/-- Is the reset input asserted in this cycle? -/
def State.rst (s : State) : Bool := s.rstPin.headD false

end Sys2Proof.Machine
end

