-- ==== Sys2Proof/Machine/Ops.lean ====
section
/-! DEFINITION. The operations the meanings and the step are built from: answering a request, raising an error
status, drawing a free value, reading the ROM, and the parts of a clock cycle. -/

namespace Sys2Proof.Machine

/-! ## Answering the request that the current port has accepted -/

/-- The response `r` joins the end of the current port's in-flight queue, `LATENCY` cycles from its
presentation (10_state.md R27, 30_encoding.md R66). Nothing else changes (10_state.md R20). -/
def State.respond (s : State) (r : Response) : State :=
  { s with port := { s.port with inflight := s.port.inflight ++ [⟨r, Config.latency⟩] } }

/-- `y <- v; cout <- c`, with status OK (00_scope.md R12, 30_encoding.md R63). -/
def complete (y : Word) (cout : Bool) (s : State) : Outcome := .next (s.respond ⟨y, cout, .ok⟩)

/-- `raise S`: "end the operation with status S; then `y <- 0`, `cout <- 0`" (R12). The unit's one way to
report an error: it transfers no control, saves no state and changes no mode (60_exceptions.md R203, R206), and
there is nothing to return from (R207). -/
def raise (e : Status) (s : State) : Outcome := .next (s.respond ⟨0, noCarry, e⟩)

/-- The value `draw64()` gives the current port now (R12). -/
def State.drawn (s : State) : Word := Config.selUndef s.portNo s.port.draws

/-- The state in which that value has been used up, so that the next draw is another one
(46_select_within_word.md R192). -/
def State.afterDraw (s : State) : State := { s with port := { s.port with draws := s.port.draws + 1 } }

/-- The pseudocode that TRD.\<T\> operations share (41_constant_tables.md R121): an unsigned 64-bit compare
with the table's length, then the element zero-extended. -/
def tableRead (t : TableId) (k : Word) (s : State) : Outcome :=
  if tableLen t ≤ k.toNat then raise .tableRange s
  else complete (tblRead t k.toNat) noCarry s

/-! ## The host's side of a port (30_encoding.md R76) -/

/-- The response to the `n`-th request of the port, counted from 1, once it has arrived. -/
def response? (answers : List (Option Response)) (n : Nat) : Option Response :=
  match n with
  | 0 => none
  | m + 1 => (answers[m]?).join

/-- The value of an operand, once every response it refers to has arrived (R76, R242). -/
def resolve (answers : List (Option Response)) : Operand → Option Word
  | .lit v => some v
  | .yOf n => (response? answers n).map (·.y)
  | .coutOf n => (response? answers n).map (fun r => zext (BitVec.ofBool r.cout))

/-- A carry operand as the bit `cin`: no other value than 0 or 1 can be presented (30_encoding.md R61;
log 17). -/
def resolveCarry (answers : List (Option Response)) (o : Operand) : Option Bool :=
  match resolve answers o with
  | some v => if v = 0 then some false else if v = 1 then some true else none
  | none => none

/-- "The host resolves references before it issues the line" (R76). -/
def resolveLine (answers : List (Option Response)) (l : Line) : Option Request :=
  match resolve answers l.a, resolve answers l.b, resolveCarry answers l.cin with
  | some a, some b, some c => some ⟨l.cmd, a, b, c⟩
  | _, _, _ => none

/-- The request on the port's input signals: `none` is `req_valid = 0`. The host waits with a line whose
references have not all arrived (70_reset_and_hazards.md R242). -/
def Port.offered (p : Port) : Option Request :=
  match p.moves with
  | .offer l :: _ => resolveLine p.answers l
  | _ => none

/-- The host goes on after an accepted line. -/
def Port.popMove (p : Port) : Port := { p with moves := p.moves.tail }

/-- An idle move passes with the cycle; an offer is held (10_state.md R28; log 8). -/
def Port.passIdle (p : Port) : Port :=
  match p.moves with
  | .idle :: ms => { p with moves := ms }
  | _ => p

/-! ## One clock cycle of a port (30_encoding.md R66, 70_reset_and_hazards.md R230, R232) -/

/-- A cycle with `rst = 1`: not ready, `rsp_valid = 0`, the queue emptied and its requests never answered
(R230); the initialisation delay starts afresh (R232). The ROM and the count of draws are not touched. -/
def Port.resetCycle (p : Port) : Port :=
  { p.passIdle with
    ready := false, initLeft := Config.initCycles, inflight := [], out := none,
    answers := p.answers ++ p.inflight.map (fun _ => none) }

/-- A clock edge with `rst = 0`: the response presented in the cycle before is withdrawn, every response in
flight is one cycle nearer, and `ready` rises once the initialisation delay has passed, then stays (R232). -/
def Port.tick (p : Port) : Port :=
  { p with
    out := none,
    ready := p.ready || p.initLeft == 0,
    initLeft := p.initLeft - 1,
    inflight := p.inflight.map (fun f => { f with due := f.due - 1 }) }

/-- Presentation: the oldest response, if it is due in this cycle, is put out with `rsp_valid = 1`, and the
host takes it (30_encoding.md R66, 70_reset_and_hazards.md R243). -/
def Port.deliver (p : Port) : Port :=
  match p.inflight with
  | ⟨r, 0⟩ :: rest => { p with inflight := rest, out := some r, answers := p.answers ++ [some r] }
  | _ => p

/-! ## Moving between the ports of a cycle (60_exceptions.md R222; log 1) -/

/-- Change the current port. -/
def State.onPort (f : Port → Port) (s : State) : State := { s with port := f s.port }

/-- The current port's turn is over. After the last port the next clock cycle begins with port 0 and the next
value of `rst`. -/
def State.endTurn (s : State) : State :=
  match s.waiting with
  | q :: qs => { s with served := s.served ++ [s.port], port := q, waiting := qs }
  | [] =>
    match s.served with
    | [] => { s with rstPin := s.rstPin.tail }
    | q :: qs => { rstPin := s.rstPin.tail, served := [], port := q, waiting := qs ++ [s.port] }

/-- What follows the acceptance in a cycle: presentation, then the end of the turn. -/
def State.finish (s : State) : State := (s.onPort Port.deliver).endTurn

/-- The beginning of a cycle with `rst = 0` in which the request at the head of the host's moves is accepted:
the clock edge, and the host goes on to its next move. -/
def State.accept (s : State) : State := s.onPort (fun p => p.tick.popMove)

/-- Apply a function to the state of a next outcome. -/
def onNext (f : State → State) : Outcome → Outcome
  | .next s => .next (f s)
  | .fault e => .fault e
  | .refused e => .refused e

end Sys2Proof.Machine
end

