-- ==== Sys2Proof/Machine/BitLocate.lean ====
section
/-! DEFINITION. BitLocate: HI, LO (43_bit_locate.md), and the source's own algorithms for them. -/

namespace Sys2Proof.Machine

/-- HI (R151): the position of the most significant set bit, 0 for the zero word. -/
def execHi (a : Word) (s : State) : Outcome := complete (zextNat (hiPos a)) noCarry s

/-- LO (R152): the position of the least significant set bit, 0 for the zero word. -/
def execLo (a : Word) (s : State) : Outcome := complete (zextNat (loPos a)) noCarry s

/-- The source's algorithm for `lo` (R153): isolate the lowest set bit, multiply by `deBruijn64`, shift right
by 58, look the index up. -/
def loDeBruijn (x : Word) : Nat := (ltDeBruijnToIdx (deBruijnIdx (x &&& -x))).toNat

/-- The source's algorithm for `hi` (R154): `8j + lt_hi[byte j]` for the highest nonzero byte `j`, and 0 for
the zero word. -/
def hiByBytes (x : Word) : Nat :=
  let j := lastPos 8 (fun j => byteOf x j != 0)
  8 * j + (ltHi (byteOf x j).toNat).toNat

end Sys2Proof.Machine
end

