-- ==== Sys2Proof/Machine/ConstantTables.lean ====
section
/-! DEFINITION. ConstantTables: the table reads TRD.* (41_constant_tables.md R110 to R121). -/

namespace Sys2Proof.Machine

/-- TRD.ALLSET (R110). -/
def execTrdAllset (k : Word) (s : State) : Outcome := tableRead .allSet k s

/-- TRD.DEBRUIJN (R111). -/
def execTrdDebruijn (k : Word) (s : State) : Outcome := tableRead .deBruijn64 k s

/-- TRD.DB2IDX (R112). -/
def execTrdDb2idx (k : Word) (s : State) : Outcome := tableRead .ltDeBruijnToIdx k s

/-- TRD.FIB (R113). -/
def execTrdFib (k : Word) (s : State) : Outcome := tableRead .ltFib k s

/-- TRD.CNT (R114). -/
def execTrdCnt (k : Word) (s : State) : Outcome := tableRead .ltCnt k s

/-- TRD.HI (R115). -/
def execTrdHi (k : Word) (s : State) : Outcome := tableRead .ltHi k s

/-- TRD.LO (R116). -/
def execTrdLo (k : Word) (s : State) : Outcome := tableRead .ltLo k s

/-- TRD.LOSET (R117). -/
def execTrdLoset (k : Word) (s : State) : Outcome := tableRead .loSet k s

/-- TRD.LOUNSET (R118). -/
def execTrdLounset (k : Word) (s : State) : Outcome := tableRead .loUnset k s

/-- TRD.SEL (R119): an unused entry is read like any other, with status OK. -/
def execTrdSel (k : Word) (s : State) : Outcome := tableRead .ltSel k s

/-- TRD.PSOVF (R120). -/
def execTrdPsovf (k : Word) (s : State) : Outcome := tableRead .psOverflow k s

end Sys2Proof.Machine
end

