-- ==== Sys2Proof/Machine/PairCounter.lean ====
section
/-! DEFINITION. PairCounter: CNT11, CNT11C, CNT10C, CNT01C (44_pair_counter.md). -/

namespace Sys2Proof.Machine

/-- CNT11 (R161): the aligned pairs with both bits set. -/
def execCnt11 (a : Word) (s : State) : Outcome := complete (zextNat (popcount (alignedPairs a))) noCarry s

/-- CNT11C (R162): the windows showing "11"; `cout <- a[63]`. -/
def execCnt11c (a : Word) (c : Bool) (s : State) : Outcome :=
  complete (zextNat (popcount (m11 a c))) (carryOut a) s

/-- CNT10C (R163): the windows showing "10"; `cout <- a[63]`. -/
def execCnt10c (a : Word) (c : Bool) (s : State) : Outcome :=
  complete (zextNat (popcount (m10 a c))) (carryOut a) s

/-- CNT01C (R164): the windows showing "01"; `cout <- a[63]`. -/
def execCnt01c (a : Word) (c : Bool) (s : State) : Outcome :=
  complete (zextNat (popcount (m01 a c))) (carryOut a) s

end Sys2Proof.Machine
end

