-- ==== Sys2Proof/Machine/PairMapper.lean ====
section
/-! DEFINITION. PairMapper: MAP10, MAP01 (45_pair_mapper.md). -/

namespace Sys2Proof.Machine

/-- MAP10 (R180): `y <- ((a << 1) | zext_64(cin)) & ~a`; `cout <- 0`. -/
def execMap10 (a : Word) (c : Bool) (s : State) : Outcome := complete (m10 a c) noCarry s

/-- MAP01 (R181): `y <- ~((a << 1) | zext_64(cin)) & a`; `cout <- 0`. -/
def execMap01 (a : Word) (c : Bool) (s : State) : Outcome := complete (m01 a c) noCarry s

end Sys2Proof.Machine
end

