-- ==== Sys2Proof/Machine/SelectWithinWord.lean ====
section
/-! DEFINITION. SelectWithinWord: SEL (46_select_within_word.md), and the source's own algorithm for it. -/

namespace Sys2Proof.Machine

/-- SEL (R190): a range error for `b = 0` or `b >= 65` (R191); a free value, with status OK, where the word has
fewer than `b` set bits (R192); else the position of the `b`-th set bit. -/
def execSel (a i : Word) (s : State) : Outcome :=
  if selOutOfRange i then raise .selRange s
  else if popcount a < i.toNat then complete s.drawn noCarry s.afterDraw
  else complete (zextNat (selPos a i.toNat)) noCarry s

/-- The per-byte prefix popcount of R193: the sum of `lt_cnt` over bytes `0 .. j` of `x`. -/
def prefixSum (x : Word) (j : Nat) : Nat :=
  ((List.range (j + 1)).map (fun m => (ltCnt (byteOf x m).toNat).toNat)).sum

/-- The word whose byte `j` is the prefix popcount of bytes `0 .. j` (R193). -/
def prefixSums (x : Word) : Word :=
  BitVec.ofNat 64 (ofBytes ((List.range 8).map (fun j => BitVec.ofNat 8 (prefixSum x j))))

/-- The source's algorithm for `sel` (R193): add the overflow thresholds to the prefix sums, find the first byte
whose sum reaches `i`, then look the residual count up in `lt_sel`. -/
def selByBytes (x : Word) (i : Nat) : Nat :=
  let s := prefixSums x
  let bits := (s + psOverflow i) &&& 0x8080808080808080
  let j := loPos bits >>> 3
  let r := i - (if j = 0 then 0 else (byteOf s (j - 1)).toNat)
  8 * j + (ltSel (256 * (r - 1) + (byteOf x j).toNat)).toNat

end Sys2Proof.Machine
end

