-- ==== Sys2Proof/Machine/WordPopcount.lean ====
section
/-! DEFINITION. WordPopcount: CNT, CNT32, CNT8 (42_word_popcount.md), and the byte-table fold the source allows. -/

namespace Sys2Proof.Machine

/-- CNT (R141): `y <- zext_64(popcount(a[63:0]))`. -/
def execCnt (a : Word) (s : State) : Outcome := complete (zextNat (popcount a)) noCarry s

/-- CNT32 (R142): `y <- zext_64(popcount(a[31:0]))`. -/
def execCnt32 (a : Word) (s : State) : Outcome := complete (zextNat (popcount (lowHalf a))) noCarry s

/-- CNT8 (R143): `y <- zext_64(popcount(a[7:0]))`. -/
def execCnt8 (a : Word) (s : State) : Outcome := complete (zextNat (popcount (byteOf a 0))) noCarry s

/-- The fold of R144 over the low `n` bytes: the sum of their `lt_cnt` entries. -/
def cntFold (n : Nat) (x : Word) : Nat :=
  ((List.range n).map (fun j => (ltCnt (byteOf x j).toNat).toNat)).sum

end Sys2Proof.Machine
end

