-- ==== Sys2Proof/Machine/Dispatch.lean ====
section
/-! DEFINITION. The dispatch of 30_encoding.md R62: each operation's meaning, applied to the state in which the
current port has accepted the request. -/

namespace Sys2Proof.Machine

def exec (i : Instr) (s : State) : Host.Outcome State Fault Refusal :=
  match i with
  | .cnt a => Sys2Proof.Machine.execCnt a s
  | .cnt32 a => Sys2Proof.Machine.execCnt32 a s
  | .cnt8 a => Sys2Proof.Machine.execCnt8 a s
  | .hi a => Sys2Proof.Machine.execHi a s
  | .lo a => Sys2Proof.Machine.execLo a s
  | .cnt11 a => Sys2Proof.Machine.execCnt11 a s
  | .cnt11c a c => Sys2Proof.Machine.execCnt11c a c s
  | .cnt10c a c => Sys2Proof.Machine.execCnt10c a c s
  | .cnt01c a c => Sys2Proof.Machine.execCnt01c a c s
  | .map10 a c => Sys2Proof.Machine.execMap10 a c s
  | .map01 a c => Sys2Proof.Machine.execMap01 a c s
  | .sel a k => Sys2Proof.Machine.execSel a k s
  | .trdAllset k => Sys2Proof.Machine.execTrdAllset k s
  | .trdDebruijn k => Sys2Proof.Machine.execTrdDebruijn k s
  | .trdDb2idx k => Sys2Proof.Machine.execTrdDb2idx k s
  | .trdFib k => Sys2Proof.Machine.execTrdFib k s
  | .trdCnt k => Sys2Proof.Machine.execTrdCnt k s
  | .trdHi k => Sys2Proof.Machine.execTrdHi k s
  | .trdLo k => Sys2Proof.Machine.execTrdLo k s
  | .trdLoset k => Sys2Proof.Machine.execTrdLoset k s
  | .trdLounset k => Sys2Proof.Machine.execTrdLounset k s
  | .trdSel k => Sys2Proof.Machine.execTrdSel k s
  | .trdPsovf k => Sys2Proof.Machine.execTrdPsovf k s

end Sys2Proof.Machine
end

