-- ==== Sys2Proof/Machine/Cycle.lean ====
section
/-! DEFINITION. One clock cycle of the port whose turn it is (30_encoding.md R62, R66; log 1, log 15, log 16). -/

namespace Sys2Proof.Machine

/-- `Exec` of R62 on an accepted request: decode first, then the operation's rule; an illegal `cmd` is answered
with ILLEGAL_OP and nothing else is checked (60_exceptions.md R202, R205). -/
def serve (r : Request) (s : State) : Outcome :=
  match decodeRequest r with
  | .ok i => exec i s
  | .error _ => raise .illegalOp s

/-- One clock cycle of the current port. With `rst = 1` it is reset (70_reset_and_hazards.md R230). Else, after
the clock edge, an offered request is accepted and answered if the port is ready, and is held by the host if it
is not (10_state.md R28); then a response that is due is presented. -/
def cycle (s : State) : Outcome :=
  if s.rst then .next (s.onPort Port.resetCycle).endTurn
  else
    match s.port.offered with
    | some r =>
      if s.port.tick.ready then onNext State.finish (serve r s.accept)
      else .next (s.onPort Port.tick).finish
    | none => .next (s.onPort (fun p => p.tick.passIdle)).finish

/-- A port that has the request `r` as its next one and can accept it at once: the host offers `r` before its
other moves, and the initialisation delay is over. -/
def Port.load (r : Request) (p : Port) : Port :=
  { p with ready := true, initLeft := 0, moves := .offer (Line.ofRequest r) :: p.moves }

/-- The machine with `r` loaded at the current port, in a cycle without reset (log 9). -/
def State.load (r : Request) (s : State) : State :=
  { s with rstPin := if s.rst then false :: s.rstPin else s.rstPin, port := s.port.load r }

end Sys2Proof.Machine
end

