-- ==== Sys2Proof/Machine/Step.lean ====
section
/-! DEFINITION. One step of the machine. -/

namespace Sys2Proof.Machine

/-- A step is one clock cycle of the port whose turn it is (Machine/Cycle.lean). -/
def step (s : State) : Host.Outcome State Fault Refusal := cycle s

/-- `s` with the request of the table word `w` as the one the next step accepts and runs (log 9). -/
def State.withFetchWord (s : State) (nbits w : Nat) : State := s.load (requestOfTableWord nbits w)

end Sys2Proof.Machine
end

