-- ==== Sys2Proof/Machine/Assembler.lean ====
section
/-! DEFINITION. The assembler notation of 30_encoding.md R74 to R76: from a written line to the line of a host
program, with the pseudo-instructions of R75 expanded. -/

namespace Sys2Proof.Machine

/-- A written operand as an operand of a host line. -/
def AsmOperand.operand : AsmOperand → Operand
  | .num v => .lit (BitVec.ofNat 64 v)
  | .yOf n => .yOf n
  | .coutOf n => .coutOf n
  | .table _ => .lit 0

/-- The operation a line stands for, pseudo-instructions expanded (R75): `CNT11 a, c` is CNT11C, `CNT10` is
CNT10C, `CNT01` is CNT01C, `TRD <name>, k` is the read of the named table. -/
def asmOp (l : AsmLine) : Option Op :=
  match l.name, l.operands with
  | .op .cnt11, [_, _] => some .cnt11c
  | .op o, _ => some o
  | .cnt10, _ => some .cnt10c
  | .cnt01, _ => some .cnt01c
  | .trd, .table t :: _ => some (.trd t)
  | .trd, _ => none

/-- The operand written in a role, or the default where the form has none. -/
def pick (role : Slot) (default : Operand) (written : List (Slot × AsmOperand)) : Operand :=
  match written.find? (fun w => w.1 == role) with
  | some w => AsmOperand.operand w.2
  | none => default

/-- "An operand the row does not list is encoded as 0" (R74), but for the carry of `MAP01 a`, which is 1 (R75). -/
def defaultCarry : Op → Operand
  | .map01 => .lit 1
  | _ => .lit 0

/-- Line `n` of a host program from its assembler form (R74, R75); `none` where it is not valid assembly. -/
def assemble (n : Nat) (l : AsmLine) : Option Line :=
  match l.name.forms.find? (fitsForm n · l.operands), asmOp l with
  | some form, some o =>
    let written := form.zip l.operands
    some { cmd := o.code, a := pick .a (.lit 0) written, b := pick .b (.lit 0) written,
           cin := pick .cin (defaultCarry o) written }
  | _, _ => none

/-- A program, its first line numbered `n` (R76). -/
def assembleAll (n : Nat) : List AsmLine → Option (List Line)
  | [] => some []
  | l :: ls =>
    match assemble n l, assembleAll (n + 1) ls with
    | some x, some xs => some (x :: xs)
    | _, _ => none

/-! ## The written form, as characters (log 14) -/

/-- The mnemonics of R68 and the pseudo-instruction names of R75. -/
def asmNames : List (List Char × AsmName) :=
  [("CNT".toList, .op .cnt), ("CNT32".toList, .op .cnt32), ("CNT8".toList, .op .cnt8), ("HI".toList, .op .hi),
   ("LO".toList, .op .lo), ("CNT11".toList, .op .cnt11), ("CNT11C".toList, .op .cnt11c),
   ("CNT10C".toList, .op .cnt10c), ("CNT01C".toList, .op .cnt01c), ("MAP10".toList, .op .map10),
   ("MAP01".toList, .op .map01), ("SEL".toList, .op .sel)]
  ++ [("TRD.ALLSET".toList, .op (.trd .allSet)), ("TRD.DEBRUIJN".toList, .op (.trd .deBruijn64)),
   ("TRD.DB2IDX".toList, .op (.trd .ltDeBruijnToIdx)), ("TRD.FIB".toList, .op (.trd .ltFib)),
   ("TRD.CNT".toList, .op (.trd .ltCnt)), ("TRD.HI".toList, .op (.trd .ltHi)),
   ("TRD.LO".toList, .op (.trd .ltLo)), ("TRD.LOSET".toList, .op (.trd .loSet)),
   ("TRD.LOUNSET".toList, .op (.trd .loUnset)), ("TRD.SEL".toList, .op (.trd .ltSel)),
   ("TRD.PSOVF".toList, .op (.trd .psOverflow))]
  ++ [("CNT10".toList, .cnt10), ("CNT01".toList, .cnt01), ("TRD".toList, .trd)]

/-- The source's names of the tables, for `TRD <name>, k` (R75). -/
def tableNames : List (List Char × TableId) :=
  [("all_set".toList, .allSet), ("deBruijn64".toList, .deBruijn64),
   ("lt_deBruijn_to_idx".toList, .ltDeBruijnToIdx), ("lt_fib".toList, .ltFib), ("lt_cnt".toList, .ltCnt),
   ("lt_hi".toList, .ltHi), ("lt_lo".toList, .ltLo), ("lo_set".toList, .loSet), ("lo_unset".toList, .loUnset),
   ("lt_sel".toList, .ltSel), ("ps_overflow".toList, .psOverflow)]

/-- The entry of a name in a list of names. -/
def lookupName {α : Type} (names : List (List Char × α)) (w : List Char) : Option α :=
  (names.find? (fun e => e.1 == w)).map (·.2)

/-- The value of a digit, of either case, where it is one of the base. -/
def digit (base : Nat) (c : Char) : Option Nat :=
  let n := c.toNat
  let v := if 48 ≤ n && n ≤ 57 then n - 48 else if 65 ≤ n && n ≤ 70 then n - 55
    else if 97 ≤ n && n ≤ 102 then n - 87 else base
  if v < base then some v else none

/-- The number written with the digits, after the value `acc` of those before them. -/
def digits (base acc : Nat) : List Char → Option Nat
  | [] => some acc
  | c :: cs =>
    match digit base c with
    | some v => digits base (acc * base + v) cs
    | none => none

/-- "decimal, or hexadecimal with the prefix `0x`, or binary with the prefix `0b`" (R74). -/
def number : List Char → Option Nat
  | [] => none
  | '0' :: 'x' :: c :: cs => digits 16 0 (c :: cs)
  | '0' :: 'b' :: c :: cs => digits 2 0 (c :: cs)
  | c :: cs => digits 10 0 (c :: cs)

/-- A written operand: `@n.y`, `@n.cout`, a table's name or a number (R74 to R76). -/
def readOperand (w : List Char) : Option AsmOperand :=
  match w with
  | '@' :: rest =>
    match number (rest.takeWhile (· != '.')), rest.dropWhile (· != '.') with
    | some n, ['.', 'y'] => some (.yOf n)
    | some n, ['.', 'c', 'o', 'u', 't'] => some (.coutOf n)
    | _, _ => none
  | _ =>
    match lookupName tableNames w with
    | some t => some (.table t)
    | none => (number w).map .num

/-- Without the spaces at either end. -/
def trim (w : List Char) : List Char :=
  ((w.dropWhile (· == ' ')).reverse.dropWhile (· == ' ')).reverse

/-- The parts of a text between its commas. -/
def splitCommas : List Char → List (List Char)
  | [] => [[]]
  | c :: cs =>
    if c == ',' then [] :: splitCommas cs
    else
      match splitCommas cs with
      | w :: ws => (c :: w) :: ws
      | [] => [[c]]

/-- Every element, where each has a value. -/
def allSome {α : Type} : List (Option α) → Option (List α)
  | [] => some []
  | none :: _ => none
  | some x :: xs => (allSome xs).map (x :: ·)

/-- `MNEMONIC operands`, the operands separated by commas (R74). -/
def readLine (text : List Char) : Option AsmLine :=
  let line := trim text
  match lookupName asmNames (line.takeWhile (· != ' ')),
      allSome ((splitCommas (line.dropWhile (· != ' '))).map (fun w => readOperand (trim w))) with
  | some name, some os => some ⟨name, os⟩
  | _, _ => none

end Sys2Proof.Machine
end

