-- ==== Sys2Proof/Safety.lean ====
section
/-! DEFINITION. The terms claims are stated in: what a response must be (the transaction level of 30_encoding.md
R62), what a clock cycle does to one port on its own, the invariant of the machine, and streams of words. -/

namespace Sys2Proof.Machine

/-! ## The transaction level: `Exec(cmd, a, b, cin)` (R62) -/

/-- The response of an error status: `y = 0`, `cout = 0` (60_exceptions.md R203). -/
def errorResponse (e : Status) : Response := ⟨0, false, e⟩

/-- The response to the request `r`, as a function of the request and the ROM, and of the draw `d` in SEL's
caller-undefined case (R62, R64). -/
def execResponse (r : Request) (d : Word) : Response :=
  match Op.ofCode r.cmd with
  | none => errorResponse .illegalOp
  | some .cnt => ⟨zextNat (popcount r.a), false, .ok⟩
  | some .cnt32 => ⟨zextNat (popcount (lowHalf r.a)), false, .ok⟩
  | some .cnt8 => ⟨zextNat (popcount (byteOf r.a 0)), false, .ok⟩
  | some .hi => ⟨zextNat (hiPos r.a), false, .ok⟩
  | some .lo => ⟨zextNat (loPos r.a), false, .ok⟩
  | some .cnt11 => ⟨zextNat (popcount (alignedPairs r.a)), false, .ok⟩
  | some .cnt11c => ⟨zextNat (popcount (m11 r.a r.cin)), r.a.getLsbD 63, .ok⟩
  | some .cnt10c => ⟨zextNat (popcount (m10 r.a r.cin)), r.a.getLsbD 63, .ok⟩
  | some .cnt01c => ⟨zextNat (popcount (m01 r.a r.cin)), r.a.getLsbD 63, .ok⟩
  | some .map10 => ⟨m10 r.a r.cin, false, .ok⟩
  | some .map01 => ⟨m01 r.a r.cin, false, .ok⟩
  | some .sel =>
    if r.b.toNat = 0 ∨ 65 ≤ r.b.toNat then errorResponse .selRange
    else if popcount r.a < r.b.toNat then ⟨d, false, .ok⟩
    else ⟨zextNat (selPos r.a r.b.toNat), false, .ok⟩
  | some (.trd t) =>
    if r.b.toNat < tableLen t then ⟨tblRead t r.b.toNat, false, .ok⟩ else errorResponse .tableRange

/-- Does the request meet SEL's caller-undefined case (46_select_within_word.md R192)? -/
def callerUndefined (r : Request) : Bool :=
  Op.ofCode r.cmd == some .sel && 1 ≤ r.b.toNat && r.b.toNat ≤ 64 && popcount r.a < r.b.toNat

/-- Two requests that agree on their operation and on what its row of 30_encoding.md R69 reads (R65). -/
def agreeOnRead (r r' : Request) : Prop :=
  r.cmd = r'.cmd ∧
  match Op.ofCode r.cmd with
  | none => True
  | some .cnt32 => r.a.extractLsb' 0 32 = r'.a.extractLsb' 0 32
  | some .cnt8 => r.a.extractLsb' 0 8 = r'.a.extractLsb' 0 8
  | some .cnt => r.a = r'.a
  | some .hi => r.a = r'.a
  | some .lo => r.a = r'.a
  | some .cnt11 => r.a = r'.a
  | some .cnt11c => r.a = r'.a ∧ r.cin = r'.cin
  | some .cnt10c => r.a = r'.a ∧ r.cin = r'.cin
  | some .cnt01c => r.a = r'.a ∧ r.cin = r'.cin
  | some .map10 => r.a = r'.a ∧ r.cin = r'.cin
  | some .map01 => r.a = r'.a ∧ r.cin = r'.cin
  | some .sel => r.a = r'.a ∧ r.b = r'.b
  | some (.trd _) => r.b = r'.b

/-- `s` with the response `r` at the end of the current port's in-flight queue, due in `LATENCY` cycles, and
everything else as it is in `s`. -/
def State.withResponse (s : State) (r : Response) : State :=
  { s with port := { s.port with inflight := s.port.inflight ++ [⟨r, Config.latency⟩] } }

/-- The number of positions below `n` that satisfy `f`. -/
def countPositions (n : Nat) (f : Nat → Bool) : Nat := (Finset.univ.filter (fun p : Fin n => f p = true)).card

/-- The bit before bit `i` of `a` in stream order: the carry for bit 0 (00_scope.md R13). -/
def bitBefore (a : Word) (c : Bool) (i : Nat) : Bool := if i = 0 then c else a.getLsbD (i - 1)

/-! ## One port on its own -/

/-- One entry per accepted request, in acceptance order: what the host has seen, then what is in flight. -/
def Port.history (p : Port) : List (Option Response) := p.answers ++ p.inflight.map (fun f => some f.rsp)

/-- What one clock cycle makes of the port numbered `no`, from that port, its number and the reset input
alone (60_exceptions.md R222). -/
def portCycle (rst : Bool) (no : Nat) (p : Port) : Port :=
  if rst then p.resetCycle
  else
    match p.offered with
    | some r =>
      if p.tick.ready then
        let q := p.tick.popMove
        ({ q with
            inflight := q.inflight ++ [⟨execResponse r (Config.selUndef no p.draws), Config.latency⟩],
            draws := p.draws + if callerUndefined r then 1 else 0 } : Port).deliver
      else p.tick.deliver
    | none => p.tick.passIdle.deliver

/-! ## The invariant -/

/-- A response that is not OK has `y = 0` and `cout = 0` (60_exceptions.md R203). -/
def lawful (r : Response) : Prop := r.status ≠ .ok → r.y = 0 ∧ r.cout = false

/-- What holds of a port between its turns: it is ready from the end of its initialisation on, not before; only
a ready port has responses in flight or on its outputs; those in flight are due in their order, one a cycle,
within `LATENCY` cycles; and every response is lawful. -/
structure Port.Inv (p : Port) : Prop where
  ready_init : p.ready = true → p.initLeft = 0
  init_le : p.initLeft ≤ Config.initCycles
  notReady_quiet : p.ready = false → p.inflight = [] ∧ p.out = none
  due_sorted : p.inflight.Pairwise (fun f g => f.due < g.due)
  due_range : ∀ f ∈ p.inflight, 1 ≤ f.due ∧ f.due ≤ Config.latency
  history_lawful : ∀ r, some r ∈ p.history → lawful r
  out_taken : ∀ r, p.out = some r → p.answers.getLast? = some (some r)

/-- The machine's invariant: every port's, and there are `N_PORTS` ports (R222). -/
structure State.Inv (s : State) : Prop where
  ports_inv : ∀ p ∈ s.ports, p.Inv
  ports_length : s.ports.length = Config.nPorts

/-! ## Runs -/

/-- The machine at the start of a clock cycle: it is the turn of port 0. -/
def State.atCycleStart (s : State) : Prop := s.served = []

/-- `n` steps from `s`, by the host's runner. -/
def run (n : Nat) (s : State) : Outcome := Host.Core.run Sys2Proof.core n s

/-- `k` whole clock cycles from `s`: as many steps as there are ports, `k` times. -/
def runCycles (k : Nat) (s : State) : Outcome := run (k * s.ports.length) s

/-! ## Streams of words (44_pair_counter.md R165) -/

/-- The bits of a stream of words, the least significant bit of the first word first. -/
def streamBits (ws : List Word) : List Bool := ws.flatMap (fun w => (List.range 64).map w.getLsbD)

/-- The number of windows showing `pq` in a stream whose first bit comes after `before`. -/
def windows (p q : Bool) : Bool → List Bool → Nat
  | _, [] => 0
  | before, b :: bs => (if before = p ∧ b = q then 1 else 0) + windows p q b bs

/-- The marks of the windows showing `pq`, one bit per window. -/
def marks (p q : Bool) : Bool → List Bool → List Bool
  | _, [] => []
  | before, b :: bs => decide (before = p ∧ b = q) :: marks p q b bs

/-- The counts the unit answers for the words of a stream, added up, when the host passes each response's
carry-out to the next request (70_reset_and_hazards.md R240). -/
def chainedCount (cmd : BitVec 8) : Bool → List Word → Nat
  | _, [] => 0
  | c, w :: ws =>
    let r := execResponse ⟨cmd, w, 0, c⟩ 0
    r.y.toNat + chainedCount cmd r.cout ws

/-- The words the unit answers for the words of a stream, when the host passes bit 63 of each word to the next
request (R240, 45_pair_mapper.md R183). -/
def chainedMap (cmd : BitVec 8) : Bool → List Word → List Word
  | _, [] => []
  | c, w :: ws => (execResponse ⟨cmd, w, 0, c⟩ 0).y :: chainedMap cmd (w.getLsbD 63) ws

end Sys2Proof.Machine
end

