-- ==== Sys2Proof/Certificates/Slice0/Obligations.lean ====
section
/-! DEFINITION. The statements for the provers. Each docstring names the rule of spec/ it formalises; a rule that
the spec marks as derived or as general knowledge is named as such, and the statement is then derived. -/

open Sys2Proof Sys2Proof.Machine

/-! ## Encoding -/

/-- Decoding the encoding of an instruction gives it back, with every operand at every value, from the request's
fields and from its bytes with any bytes after them (30_encoding.md R61, R68, R69, R73, R74). -/
def Obligations.DecodeEncodeRoundTrip : Prop :=
  ∀ (i : Instr) (rest : List Byte), i.wf = true →
    decodeRequest (encodeRequest i) = .ok i ∧ decode (encode i ++ rest) = .ok (i, rest)

/-- The packed request holds `cmd` in bits 7:0, `a` in 71:8, `b` in 135:72 and `cin` in 136, and nothing else
(R61). On a byte-serial link it is sent least significant byte first: bit n of it is bit `n % 8` of byte `n / 8`
(20_memory.md R43, of requests). -/
def Obligations.PackedRequestLayout : Prop :=
  (∀ r : Request,
    r.pack.extractLsb' 0 8 = r.cmd ∧ r.pack.extractLsb' 8 64 = r.a ∧ r.pack.extractLsb' 72 64 = r.b ∧
    r.pack.getLsbD 136 = r.cin ∧ Request.unpack r.pack = r ∧
    ∀ n, n < 137 → ∃ b, r.toBytes[n / 8]? = some b ∧ b.getLsbD (n % 8) = r.pack.getLsbD n) ∧
  (∀ p : BitVec 137, (Request.unpack p).pack = p)

/-- The packed response holds `y` in bits 63:0, `cout` in 64 and the status code in 66:65, and nothing else; the
codes are 0 to 3 (R63, R200). On a byte-serial link it is sent least significant byte first: bit n of it is bit
`n % 8` of byte `n / 8` (20_memory.md R43, of responses). -/
def Obligations.PackedResponseLayout : Prop :=
  (∀ r : Response,
    r.pack.extractLsb' 0 64 = r.y ∧ r.pack.getLsbD 64 = r.cout ∧ r.pack.extractLsb' 65 2 = r.status.code ∧
    Response.unpack r.pack = r ∧
    ∀ n, n < 67 → ∃ b, r.toBytes[n / 8]? = some b ∧ b.getLsbD (n % 8) = r.pack.getLsbD n) ∧
  (∀ p : BitVec 67, (Response.unpack p).pack = p) ∧
  Status.ok.code = 0 ∧ Status.illegalOp.code = 1 ∧ Status.selRange.code = 2 ∧ Status.tableRange.code = 3

/-- The operation codes outside the map are 0x00, 0x0D to 0x1F and 0x2B to 0xFF; a request with one of them is
rejected by the decoder and answered with ILLEGAL_OP, `y = 0`, `cout = 0`, whatever its other fields hold, and
nothing else changes (R72, 60_exceptions.md R202). -/
def Obligations.IllegalCommandAnswered : Prop :=
  ∀ (cmd : BitVec 8) (a b : Word) (cin : Bool) (s : State),
    (decodeRequest ⟨cmd, a, b, cin⟩ = .error (.illegalOp cmd) ↔
      cmd.toNat = 0 ∨ (0x0D ≤ cmd.toNat ∧ cmd.toNat ≤ 0x1F) ∨ 0x2B ≤ cmd.toNat) ∧
    (cmd.toNat = 0 ∨ (0x0D ≤ cmd.toNat ∧ cmd.toNat ≤ 0x1F) ∨ 0x2B ≤ cmd.toNat →
      serve ⟨cmd, a, b, cin⟩ s = .next (s.withResponse ⟨0, false, .illegalOp⟩))

/-- Group 0x0 holds the computing operations, group 0x2 the table reads with the table id as function, and no
other group has an operation (R67). -/
def Obligations.CommandGroups : Prop :=
  ∀ (cmd : BitVec 8),
    (∀ o, Op.ofCode cmd = some o →
      (cmd.extractLsb' 4 4 = 0 ∧ ∀ t, o ≠ .trd t) ∨
      (cmd.extractLsb' 4 4 = 2 ∧ ∃ t, o = .trd t ∧ t.id = cmd.extractLsb' 0 4)) ∧
    (cmd.extractLsb' 4 4 ≠ 0 → cmd.extractLsb' 4 4 ≠ 2 → Op.ofCode cmd = none)

/-- A few words written out bit by bit from R61 and R68 decode to the instruction they stand for: one of each
family. A sanity statement. -/
def Obligations.SampleWordsDecode : Prop :=
  decodeTableWord 137 0x0000000000000000000000000000000B701 = some (.cnt 0xB7) ∧
  decodeTableWord 137 0x00000000000000000800000000000000005 = some (.lo 0x8000000000000000) ∧
  decodeTableWord 137 0x10000000000000000123456789ABCDEF009 = some (.cnt01c 0x123456789ABCDEF0 true) ∧
  decodeTableWord 137 0x10000000000000000000000000000F0F0A = some (.map10 0xF0F false) ∧
  decodeTableWord 137 0x00000000000000003000000000000000B0C = some (.sel 0xB 3) ∧
  decodeTableWord 137 0x0000000000000005B000000000000000023 = some (.trdFib 91)

/-- The pseudo-instructions of R75 expand to the forms the table names, whatever is written for their operands,
and `CNT10 a` and `CNT01 a` are no valid assembly. The second half says what the expansions encode, for every
operand that may stand there. -/
def Obligations.PseudoInstructionsExpand : Prop :=
  (∀ (n : Nat) (a c k : AsmOperand) (t : TableId),
    assemble n ⟨.op .map10, [a]⟩ = assemble n ⟨.op .map10, [a, .num 0]⟩ ∧
    assemble n ⟨.op .map01, [a]⟩ = assemble n ⟨.op .map01, [a, .num 1]⟩ ∧
    assemble n ⟨.op .cnt11, [a, c]⟩ = assemble n ⟨.op .cnt11c, [a, c]⟩ ∧
    assemble n ⟨.cnt10, [a, c]⟩ = assemble n ⟨.op .cnt10c, [a, c]⟩ ∧
    assemble n ⟨.cnt01, [a, c]⟩ = assemble n ⟨.op .cnt01c, [a, c]⟩ ∧
    assemble n ⟨.trd, [.table t, k]⟩ = assemble n ⟨.op (.trd t), [k]⟩ ∧
    assemble n ⟨.cnt10, [a]⟩ = none ∧ assemble n ⟨.cnt01, [a]⟩ = none) ∧
  (∀ (n : Nat) (a c k : AsmOperand) (t : TableId),
    a.fits n .a = true → c.fits n .cin = true → k.fits n .b = true →
    assemble n ⟨.op .map10, [a, c]⟩ = some ⟨0x0A, AsmOperand.operand a, .lit 0, AsmOperand.operand c⟩ ∧
    assemble n ⟨.op .map01, [a, c]⟩ = some ⟨0x0B, AsmOperand.operand a, .lit 0, AsmOperand.operand c⟩ ∧
    assemble n ⟨.op .cnt11c, [a, c]⟩ = some ⟨0x07, AsmOperand.operand a, .lit 0, AsmOperand.operand c⟩ ∧
    assemble n ⟨.op .cnt10c, [a, c]⟩ = some ⟨0x08, AsmOperand.operand a, .lit 0, AsmOperand.operand c⟩ ∧
    assemble n ⟨.op .cnt01c, [a, c]⟩ = some ⟨0x09, AsmOperand.operand a, .lit 0, AsmOperand.operand c⟩ ∧
    assemble n ⟨.op .sel, [a, k]⟩ = some ⟨0x0C, AsmOperand.operand a, AsmOperand.operand k, .lit 0⟩ ∧
    assemble n ⟨.op (.trd t), [k]⟩ = some ⟨0x2#4 ++ t.id, .lit 0, AsmOperand.operand k, .lit 0⟩)

/-! ## Word popcount -/

/-- CNT (42_word_popcount.md R141): code 0x01, `b` and `cin` ignored; the response is the number of set bits of
`a`, `cout = 0`, status OK, and nothing but the queue changes. -/
def Obligations.CntCountsSetBits : Prop :=
  ∀ (a b : Word) (cin : Bool) (s : State),
    decodeRequest ⟨0x01, a, b, cin⟩ = .ok (.cnt a) ∧
    ∃ y, exec (.cnt a) s = .next (s.withResponse ⟨y, false, .ok⟩) ∧
      y.toNat = countPositions 64 (fun p => a.getLsbD p)

/-- CNT32 (R142): code 0x02, the same over `a[31:0]`; the other bits of `a` are ignored. -/
def Obligations.Cnt32CountsLowHalf : Prop :=
  ∀ (a b : Word) (cin : Bool) (s : State),
    decodeRequest ⟨0x02, a, b, cin⟩ = .ok (.cnt32 a) ∧
    ∃ y, exec (.cnt32 a) s = .next (s.withResponse ⟨y, false, .ok⟩) ∧
      y.toNat = countPositions 32 (fun p => a.getLsbD p)

/-- CNT8 (R143): code 0x03, the same over `a[7:0]`, which is the `lt_cnt` entry of that byte; never
TABLE_RANGE. -/
def Obligations.Cnt8CountsLowByte : Prop :=
  ∀ (a b : Word) (cin : Bool) (s : State),
    decodeRequest ⟨0x03, a, b, cin⟩ = .ok (.cnt8 a) ∧
    ∃ y, exec (.cnt8 a) s = .next (s.withResponse ⟨y, false, .ok⟩) ∧
      y.toNat = countPositions 8 (fun p => a.getLsbD p) ∧ y = tblRead .ltCnt (a.toNat % 256)

/-- The byte-table folds of R144 (derived in the spec) give the same counts as CNT, CNT32 and CNT8. -/
def Obligations.ByteTableFoldCounts : Prop :=
  ∀ x : Word, cntFold 8 x = popcount x ∧ cntFold 4 x = popcount (lowHalf x) ∧
    cntFold 1 x = popcount (byteOf x 0)

/-- The range laws of R145 (derived in the spec). -/
def Obligations.PopcountLaws : Prop :=
  ∀ x : Word,
    popcount x ≤ 64 ∧ popcount (lowHalf x) ≤ 32 ∧ popcount (byteOf x 0) ≤ 8 ∧
    popcount (lowHalf x) = popcount (x &&& 0xFFFFFFFF) ∧ popcount (byteOf x 0) = popcount (x &&& 0xFF) ∧
    popcount x + popcount (~~~x) = 64

/-! ## Bit locate -/

/-- HI (43_bit_locate.md R151): code 0x04, `b` and `cin` ignored; the response is 0 for `a = 0`, else the
position of the most significant set bit; `cout = 0`, status OK, nothing but the queue changes. -/
def Obligations.HiFindsHighestBit : Prop :=
  ∀ (a b : Word) (cin : Bool) (s : State),
    decodeRequest ⟨0x04, a, b, cin⟩ = .ok (.hi a) ∧
    ∃ y, exec (.hi a) s = .next (s.withResponse ⟨y, false, .ok⟩) ∧
      (a = 0 → y = 0) ∧
      (a ≠ 0 → y.toNat < 64 ∧ a.getLsbD y.toNat = true ∧ ∀ q, y.toNat < q → a.getLsbD q = false)

/-- LO (R152): code 0x05; 0 for `a = 0`, else the position of the least significant set bit. -/
def Obligations.LoFindsLowestBit : Prop :=
  ∀ (a b : Word) (cin : Bool) (s : State),
    decodeRequest ⟨0x05, a, b, cin⟩ = .ok (.lo a) ∧
    ∃ y, exec (.lo a) s = .next (s.withResponse ⟨y, false, .ok⟩) ∧
      (a = 0 → y = 0) ∧
      (a ≠ 0 → y.toNat < 64 ∧ a.getLsbD y.toNat = true ∧ ∀ q, q < y.toNat → a.getLsbD q = false)

/-- The source's de Bruijn algorithm equals LO for every word (R153, derived in the spec; it rests on the
constant that R101 marks as general knowledge, log 13). -/
def Obligations.LoDeBruijnAgrees : Prop := ∀ x : Word, loDeBruijn x = loPos x

/-- The source's byte-table algorithm equals HI for every word (R154, derived in the spec). -/
def Obligations.HiByBytesAgrees : Prop := ∀ x : Word, hiByBytes x = hiPos x

/-- The laws of R156 for `x ≠ 0`: `hi(x)` and `lo(x)` are positions of set bits in 0..63, no bit above `hi(x)` and
none below `lo(x)` is set, and `lo(x) <= hi(x)`, with equality exactly when one bit is set (the last two derived in
the spec). -/
def Obligations.LoAtMostHi : Prop :=
  ∀ x : Word, x ≠ 0 →
    (hiPos x ≤ 63 ∧ x.getLsbD (hiPos x) = true ∧ ∀ q, hiPos x < q → x.getLsbD q = false) ∧
    (loPos x ≤ 63 ∧ x.getLsbD (loPos x) = true ∧ ∀ q, q < loPos x → x.getLsbD q = false) ∧
    loPos x ≤ hiPos x ∧ (loPos x = hiPos x ↔ popcount x = 1)

/-! ## Pair counter -/

/-- CNT11 (44_pair_counter.md R161): code 0x06, `b` and `cin` ignored; the number of aligned pairs
`(a[2k], a[2k+1])` with both bits set; `cout = 0`, status OK. -/
def Obligations.Cnt11CountsAlignedPairs : Prop :=
  ∀ (a b : Word) (cin : Bool) (s : State),
    decodeRequest ⟨0x06, a, b, cin⟩ = .ok (.cnt11 a) ∧
    ∃ y, exec (.cnt11 a) s = .next (s.withResponse ⟨y, false, .ok⟩) ∧
      y.toNat = countPositions 32 (fun k => a.getLsbD (2 * k) && a.getLsbD (2 * k + 1))

/-- CNT11C (R162): code 0x07, `b` ignored; the number of windows showing "11", `cout = a[63]`, status OK. -/
def Obligations.Cnt11cCountsWindows : Prop :=
  ∀ (a b : Word) (c : Bool) (s : State),
    decodeRequest ⟨0x07, a, b, c⟩ = .ok (.cnt11c a c) ∧
    ∃ y, exec (.cnt11c a c) s = .next (s.withResponse ⟨y, a.getLsbD 63, .ok⟩) ∧
      y.toNat = countPositions 64 (fun i => bitBefore a c i && a.getLsbD i)

/-- CNT10C (R163): code 0x08, `b` ignored; the number of windows showing "10", `cout = a[63]`, status OK. The
count is at most 32 (R69; derived in R163). -/
def Obligations.Cnt10cCountsWindows : Prop :=
  ∀ (a b : Word) (c : Bool) (s : State),
    decodeRequest ⟨0x08, a, b, c⟩ = .ok (.cnt10c a c) ∧
    ∃ y, exec (.cnt10c a c) s = .next (s.withResponse ⟨y, a.getLsbD 63, .ok⟩) ∧
      y.toNat = countPositions 64 (fun i => bitBefore a c i && !a.getLsbD i) ∧ y.toNat ≤ 32

/-- CNT01C (R164): code 0x09, `b` ignored; the number of windows showing "01", `cout = a[63]`, status OK. The
count is at most 32 (R69; derived in R164). -/
def Obligations.Cnt01cCountsWindows : Prop :=
  ∀ (a b : Word) (c : Bool) (s : State),
    decodeRequest ⟨0x09, a, b, c⟩ = .ok (.cnt01c a c) ∧
    ∃ y, exec (.cnt01c a c) s = .next (s.withResponse ⟨y, a.getLsbD 63, .ok⟩) ∧
      y.toNat = countPositions 64 (fun i => !bitBefore a c i && a.getLsbD i) ∧ y.toNat ≤ 32

/-- The laws of R166: the three counts and the number of "00" windows add up to 64; the "01" count less the "10"
count is `x[63] - c`; the aligned pairs are the odd "11" windows, at most all of them (derived in the spec, but
for the bound 64). -/
def Obligations.PairCountLaws : Prop :=
  ∀ (x : Word) (c : Bool),
    popcount (m11 x c) + popcount (m10 x c) + popcount (m01 x c) + popcount (m00 x c) = 64 ∧
    (popcount (m01 x c) : Int) - popcount (m10 x c) = (x.getLsbD 63).toNat - c.toNat ∧
    popcount (alignedPairs x) = popcount (m11 x c &&& 0xAAAAAAAAAAAAAAAA) ∧
    popcount (alignedPairs x) ≤ popcount (m11 x c)

/-- Chaining (R165, derived in the spec): over any stream of words, the counts that CNT11C, CNT10C and CNT01C
answer, each carry-out passed to the next request, add up to the number of windows of the concatenated bit
stream. -/
def Obligations.ChainedCountsCountStream : Prop :=
  ∀ (c : Bool) (ws : List Word),
    chainedCount 0x07 c ws = windows true true c (streamBits ws) ∧
    chainedCount 0x08 c ws = windows true false c (streamBits ws) ∧
    chainedCount 0x09 c ws = windows false true c (streamBits ws)

/-! ## Pair mapper -/

/-- MAP10 (45_pair_mapper.md R180): code 0x0A, `b` ignored; bit i of the response is set exactly when the bit
before bit i is 1 and `a[i]` is 0; `cout = 0`, status OK. The one-operand form supplies `cin = 0`. -/
def Obligations.Map10MarksFalls : Prop :=
  ∀ (a b : Word) (c : Bool) (s : State),
    decodeRequest ⟨0x0A, a, b, c⟩ = .ok (.map10 a c) ∧
    ∃ y, exec (.map10 a c) s = .next (s.withResponse ⟨y, false, .ok⟩) ∧
      (∀ i, i < 64 → y.getLsbD i = (bitBefore a c i && !a.getLsbD i)) ∧
      ∀ (n : Nat) (x : AsmOperand), x.fits n .a = true →
        assemble n ⟨.op .map10, [x]⟩ = some ⟨0x0A, AsmOperand.operand x, .lit 0, .lit 0⟩

/-- MAP01 (R181): code 0x0B, `b` ignored; bit i of the response is set exactly when the bit before bit i is 0
and `a[i]` is 1; `cout = 0`, status OK. The one-operand form supplies `cin = 1`. -/
def Obligations.Map01MarksRises : Prop :=
  ∀ (a b : Word) (c : Bool) (s : State),
    decodeRequest ⟨0x0B, a, b, c⟩ = .ok (.map01 a c) ∧
    ∃ y, exec (.map01 a c) s = .next (s.withResponse ⟨y, false, .ok⟩) ∧
      (∀ i, i < 64 → y.getLsbD i = (!bitBefore a c i && a.getLsbD i)) ∧
      ∀ (n : Nat) (x : AsmOperand), x.fits n .a = true →
        assemble n ⟨.op .map01, [x]⟩ = some ⟨0x0B, AsmOperand.operand x, .lit 0, .lit 1⟩

/-- The laws of R182 (derived in the spec): the two maps are disjoint, their union marks every window whose bits
differ, and their popcounts are the counts of CNT10C and CNT01C. -/
def Obligations.MapLaws : Prop :=
  ∀ (x : Word) (c : Bool) (d : Word),
    let y10 := (execResponse ⟨0x0A, x, 0, c⟩ d).y
    let y01 := (execResponse ⟨0x0B, x, 0, c⟩ d).y
    y10 &&& y01 = 0 ∧ y10 ||| y01 = x ^^^ ((x <<< 1) ||| (if c then 1 else 0)) ∧
    popcount y10 = (execResponse ⟨0x08, x, 0, c⟩ d).y.toNat ∧
    popcount y01 = (execResponse ⟨0x09, x, 0, c⟩ d).y.toNat

/-- Chaining the maps (R183, derived in the spec): the mapped words of a stream, laid side by side, are the marks
of the concatenated stream. -/
def Obligations.ChainedMapsMarkStream : Prop :=
  ∀ (c : Bool) (ws : List Word),
    streamBits (chainedMap 0x0A c ws) = marks true false c (streamBits ws) ∧
    streamBits (chainedMap 0x0B c ws) = marks false true c (streamBits ws)

/-! ## Select within a word -/

/-- SEL (46_select_within_word.md R190, R192): code 0x0C, `cin` ignored. Index 0, or 65 and above: SEL_RANGE.
Else, with at most `popcount(a)`: the position of the i-th set bit. With more: status OK, `cout = 0`, and a draw.
The form of the draw is the model's choice (log 3): it is `Config.selUndef` of the port's number and its count of
draws, which then goes up, so that no later request of the port uses the same one. Nothing else changes. -/
def Obligations.SelSelectsOrDraws : Prop :=
  ∀ (a i : Word) (cin : Bool) (s : State),
    decodeRequest ⟨0x0C, a, i, cin⟩ = .ok (.sel a i) ∧
    ((i.toNat = 0 ∨ 65 ≤ i.toNat) → exec (.sel a i) s = .next (s.withResponse ⟨0, false, .selRange⟩)) ∧
    (1 ≤ i.toNat → i.toNat ≤ 64 → i.toNat ≤ countPositions 64 (fun p => a.getLsbD p) →
      ∃ p, p < 64 ∧ exec (.sel a i) s = .next (s.withResponse ⟨BitVec.ofNat 64 p, false, .ok⟩) ∧
        a.getLsbD p = true ∧ countPositions (p + 1) (fun q => a.getLsbD q) = i.toNat) ∧
    (1 ≤ i.toNat → i.toNat ≤ 64 → countPositions 64 (fun p => a.getLsbD p) < i.toNat →
      exec (.sel a i) s =
        .next (({ s with port := { s.port with draws := s.port.draws + 1 } } : State).withResponse
          ⟨Config.selUndef s.served.length s.port.draws, false, .ok⟩))

/-- SEL's range check (R191, 60_exceptions.md R204): SEL_RANGE with `y = 0`, `cout = 0` exactly for `b = 0` and
`b >= 65`, whatever `a`; a negative host index, passed as its two's-complement pattern, is out of range too:
"a pattern of at least 2^63, which also raises SEL_RANGE" (R191 marks this as derived). -/
def Obligations.SelRangeChecked : Prop :=
  (∀ (a i : Word) (s : State), (i.toNat = 0 ∨ 65 ≤ i.toNat) →
    exec (.sel a i) s = .next (s.withResponse ⟨0, false, .selRange⟩)) ∧
  (∀ (a i : Word) (s t : State), ¬ (i.toNat = 0 ∨ 65 ≤ i.toNat) → exec (.sel a i) s = .next t →
    ∃ y d, t = (({ s with port := { s.port with draws := d } } : State).withResponse ⟨y, false, .ok⟩)) ∧
  (∀ (a : Word) (z : Int) (s : State), -(2 ^ 63) ≤ z → z < 0 →
    exec (.sel a (BitVec.ofInt 64 z)) s = .next (s.withResponse ⟨0, false, .selRange⟩))

/-- SEL enumerates the set bits in strictly increasing order, all of them, beginning with LO's and ending with
HI's (R194; the last two are derived in the spec). -/
def Obligations.SelEnumeratesSetBits : Prop :=
  ∀ x : Word,
    (∀ i j, 1 ≤ i → i < j → j ≤ popcount x → selPos x i < selPos x j) ∧
    (∀ p, x.getLsbD p = true ↔ ∃ i, 1 ≤ i ∧ i ≤ popcount x ∧ selPos x i = p) ∧
    (x ≠ 0 → selPos x 1 = loPos x ∧ selPos x (popcount x) = hiPos x)

/-- The source's prefix-sum algorithm equals SEL's result for every word and every index in `1 .. popcount(x)`
(R193, derived in the spec; it rests on the constants that R109 marks as general knowledge, log 13). -/
def Obligations.SelByBytesAgrees : Prop :=
  ∀ (x : Word) (i : Nat), 1 ≤ i → i ≤ popcount x → selByBytes x i = selPos x i

/-! ## Table reads -/

/-- An index of `LEN(t)` or more, as an unsigned 64-bit value, ends a table read with TABLE_RANGE, `y = 0`,
`cout = 0`, and nothing but the queue changes (41_constant_tables.md R121, 60_exceptions.md R201); the lengths
are those of 20_memory.md R41. -/
def Obligations.TableReadOutOfRange : Prop :=
  ∀ (s : State) (k : Word) (t : TableId) (len : Nat),
    (t, len) ∈ [(TableId.allSet, 1), (.deBruijn64, 1), (.ltDeBruijnToIdx, 64), (.ltFib, 92), (.ltCnt, 256),
      (.ltHi, 256), (.ltLo, 256), (.loSet, 65), (.loUnset, 65), (.ltSel, 2048), (.psOverflow, 65)] →
    len ≤ k.toNat → exec (Instr.ofTable k t) s = .next (s.withResponse ⟨0, false, .tableRange⟩)

/-- TRD.ALLSET 0 gives the word of all ones, any other index TABLE_RANGE (R100, R110). -/
def Obligations.TrdAllsetReads : Prop :=
  ∀ (a b : Word) (cin : Bool) (s : State),
    decodeRequest ⟨0x20, a, b, cin⟩ = .ok (.trdAllset b) ∧
    (b ≠ 0 → exec (.trdAllset b) s = .next (s.withResponse ⟨0, false, .tableRange⟩)) ∧
    ∃ y, exec (.trdAllset 0) s = .next (s.withResponse ⟨y, false, .ok⟩) ∧ ∀ p, p < 64 → y.getLsbD p = true

/-- TRD.DEBRUIJN 0 gives the constant, and the 64 indexes it gives are distinct (R101, whose value the spec marks
as general knowledge, log 13; R111). TRD.DB2IDX reads the inverse of that map (R102, R112, derived from it). -/
def Obligations.TrdDeBruijnReads : Prop :=
  ∀ (a b : Word) (cin : Bool) (s : State),
    decodeRequest ⟨0x21, a, b, cin⟩ = .ok (.trdDebruijn b) ∧
    decodeRequest ⟨0x22, a, b, cin⟩ = .ok (.trdDb2idx b) ∧
    exec (.trdDebruijn 0) s = .next (s.withResponse ⟨0x0218A392CD3D5DBF, false, .ok⟩) ∧
    (∀ p : Nat, p < 64 → exec (.trdDb2idx (((0x0218A392CD3D5DBF : Word) <<< p) >>> 58)) s =
      .next (s.withResponse ⟨BitVec.ofNat 64 p, false, .ok⟩)) ∧
    (∀ k : Word, k.toNat < 64 → ∃ p : Nat, p < 64 ∧ ((0x0218A392CD3D5DBF : Word) <<< p) >>> 58 = k)

/-- TRD.FIB reads the distinct positive Fibonacci numbers in ascending order, all those below 2^64; an index from
92 on gives TABLE_RANGE (R103, R113). -/
def Obligations.TrdFibReads : Prop :=
  ∀ (a b : Word) (cin : Bool) (s : State),
    decodeRequest ⟨0x23, a, b, cin⟩ = .ok (.trdFib b) ∧
    (b.toNat < 92 → ∃ y, exec (.trdFib b) s = .next (s.withResponse ⟨y, false, .ok⟩) ∧
      y.toNat = Nat.fib (b.toNat + 2)) ∧
    (92 ≤ b.toNat → exec (.trdFib b) s = .next (s.withResponse ⟨0, false, .tableRange⟩)) ∧
    Nat.fib (91 + 2) < 2 ^ 64 ∧ 2 ^ 64 ≤ Nat.fib (92 + 2)

/-- TRD.CNT reads the number of set bits of its index, a byte; an index that is no byte gives TABLE_RANGE (R104,
R114). -/
def Obligations.TrdCntReads : Prop :=
  ∀ (a b : Word) (cin : Bool) (s : State),
    decodeRequest ⟨0x24, a, b, cin⟩ = .ok (.trdCnt b) ∧
    (b.toNat < 256 → ∃ y, exec (.trdCnt b) s = .next (s.withResponse ⟨y, false, .ok⟩) ∧
      y.toNat = countPositions 8 (fun p => b.getLsbD p)) ∧
    (256 ≤ b.toNat → exec (.trdCnt b) s = .next (s.withResponse ⟨0, false, .tableRange⟩))

/-- TRD.HI and TRD.LO read the highest and the lowest set position of their index, a byte, and 0 for the byte 0;
an index that is no byte gives TABLE_RANGE (R105, R106, R115, R116). -/
def Obligations.TrdHiLoReads : Prop :=
  ∀ (a b : Word) (cin : Bool) (s : State),
    decodeRequest ⟨0x25, a, b, cin⟩ = .ok (.trdHi b) ∧ decodeRequest ⟨0x26, a, b, cin⟩ = .ok (.trdLo b) ∧
    (b.toNat < 256 →
      (∃ y, exec (.trdHi b) s = .next (s.withResponse ⟨y, false, .ok⟩) ∧ (b = 0 → y = 0) ∧
        (b ≠ 0 → y.toNat < 8 ∧ b.getLsbD y.toNat = true ∧ ∀ q, y.toNat < q → b.getLsbD q = false)) ∧
      (∃ y, exec (.trdLo b) s = .next (s.withResponse ⟨y, false, .ok⟩) ∧ (b = 0 → y = 0) ∧
        (b ≠ 0 → y.toNat < 8 ∧ b.getLsbD y.toNat = true ∧ ∀ q, q < y.toNat → b.getLsbD q = false))) ∧
    (256 ≤ b.toNat → exec (.trdHi b) s = .next (s.withResponse ⟨0, false, .tableRange⟩) ∧
      exec (.trdLo b) s = .next (s.withResponse ⟨0, false, .tableRange⟩))

/-- TRD.LOSET i reads the word whose low i bits are set, TRD.LOUNSET i its complement, for i in 0..64; an index
from 65 on gives TABLE_RANGE (R107, R117, R118). -/
def Obligations.TrdLosetLounsetRead : Prop :=
  ∀ (a b : Word) (cin : Bool) (s : State),
    decodeRequest ⟨0x27, a, b, cin⟩ = .ok (.trdLoset b) ∧ decodeRequest ⟨0x28, a, b, cin⟩ = .ok (.trdLounset b) ∧
    (b.toNat < 65 →
      ∃ y, exec (.trdLoset b) s = .next (s.withResponse ⟨y, false, .ok⟩) ∧
        exec (.trdLounset b) s = .next (s.withResponse ⟨~~~y, false, .ok⟩) ∧
        ∀ p, p < 64 → (y.getLsbD p = true ↔ p < b.toNat)) ∧
    (65 ≤ b.toNat → exec (.trdLoset b) s = .next (s.withResponse ⟨0, false, .tableRange⟩) ∧
      exec (.trdLounset b) s = .next (s.withResponse ⟨0, false, .tableRange⟩))

/-- TRD.SEL (R108, R119) at `256*j + c`: where byte `c` has more than `j` set bits, the position of the (j+1)-th;
else the implementation's own fixed byte for that entry, with status OK. An index from 2048 on gives
TABLE_RANGE. -/
def Obligations.TrdSelReads : Prop :=
  ∀ (a b : Word) (cin : Bool) (s : State),
    decodeRequest ⟨0x29, a, b, cin⟩ = .ok (.trdSel b) ∧
    (∀ j c : Nat, j < 8 → c < 256 → b = BitVec.ofNat 64 (256 * j + c) →
      (j + 1 ≤ countPositions 8 (fun p => c.testBit p) →
        ∃ p, p < 8 ∧ exec (.trdSel b) s = .next (s.withResponse ⟨BitVec.ofNat 64 p, false, .ok⟩) ∧
          c.testBit p = true ∧ countPositions (p + 1) (fun q => c.testBit q) = j + 1) ∧
      (countPositions 8 (fun p => c.testBit p) < j + 1 →
        exec (.trdSel b) s = .next (s.withResponse ⟨(Config.ltSelUnused j c).setWidth 64, false, .ok⟩))) ∧
    (2048 ≤ b.toNat → exec (.trdSel b) s = .next (s.withResponse ⟨0, false, .tableRange⟩))

/-- TRD.PSOVF i (R109, R120; the contents are general knowledge in the spec, log 13): every byte holds `128 - i`,
and added to the same lane of any word of prefix counts 0..64 it carries into no other lane and sets bit 7 exactly
where the count reaches i. -/
def Obligations.TrdPsovfReads : Prop :=
  ∀ (a b : Word) (cin : Bool) (s : State),
    decodeRequest ⟨0x2A, a, b, cin⟩ = .ok (.trdPsovf b) ∧
    (b.toNat < 65 →
      ∃ y, exec (.trdPsovf b) s = .next (s.withResponse ⟨y, false, .ok⟩) ∧
        (∀ j, j < 8 → (byteOf y j).toNat = 128 - b.toNat) ∧
        ∀ x : Word, (∀ j, j < 8 → (byteOf x j).toNat ≤ 64) → ∀ j, j < 8 →
          (byteOf (x + y) j).toNat = (byteOf x j).toNat + (128 - b.toNat) ∧
          ((x + y).getLsbD (8 * j + 7) = true ↔ b.toNat ≤ (byteOf x j).toNat))

/-! ## Requests and responses -/

/-- The transaction level (30_encoding.md R62, R64): a served request is answered with the response that `Exec`
gives, a function of its fields, the ROM and, in SEL's caller-undefined case only, of a draw; and nothing changes
but the queue and, in that case, the model's own count of draws (log 3). -/
def Obligations.ServedRequestAnswered : Prop :=
  ∀ (r : Request) (s : State),
    serve r s = .next
      (({ s with port := { s.port with draws := s.port.draws + if callerUndefined r then 1 else 0 } } : State).withResponse
        (execResponse r (Config.selUndef s.served.length s.port.draws))) ∧
    (callerUndefined r = false → ∀ d d', execResponse r d = execResponse r d')

/-- An operation reads only the fields its row of R69 names, CNT32 and CNT8 only the low bits of `a` (R65): two
requests that agree on those are answered alike from every state. -/
def Obligations.UnreadFieldsIgnored : Prop :=
  ∀ (r r' : Request), agreeOnRead r r' → ∀ s, serve r s = serve r' s

/-- The frame of every operation: when `exec` gives a next state, exactly one response has joined the end of the
current port's queue, and every other part of the machine is as before, but for the model's own count of draws
(log 3) in SEL's caller-undefined case. `cout` is 0 but for the three carry counts, and a status other than OK comes only from SEL
and the table reads, with `y = 0` and `cout = 0` (10_state.md R20, 30_encoding.md R71, 60_exceptions.md R200,
R203). -/
def Obligations.ExecFrame : Prop :=
  ∀ (i : Instr) (s t : State), exec i s = .next t →
    ∃ (r : Response) (d : Nat),
      t = { s with port := { s.port with
              inflight := s.port.inflight ++ [⟨r, Config.latency⟩], draws := s.port.draws + d } } ∧
      (d = 0 ∨ (d = 1 ∧ ∃ a k, i = .sel a k ∧ 1 ≤ k.toNat ∧ k.toNat ≤ 64 ∧ popcount a < k.toNat)) ∧
      (r.cout = true → ∃ a c, (i = .cnt11c a c ∨ i = .cnt10c a c ∨ i = .cnt01c a c) ∧ a.getLsbD 63 = true) ∧
      (r.status = .selRange → ∃ a k, i = .sel a k) ∧
      (r.status = .tableRange → ∃ k u, i = Instr.ofTable k u) ∧ r.status ≠ .illegalOp ∧
      (r.status ≠ .ok → r.y = 0 ∧ r.cout = false)

/-! ## The machine -/

/-- Every step answers a next state: no trap, no stop, no refusal (60_exceptions.md R206, 93_implementation_defined.md
section 1: "No behaviour of this unit is `stuck` or `refuse`"). -/
def Obligations.StepAlwaysGoesOn : Prop := ∀ s : State, ∃ t, step s = .next t

/-- A step runs the decoded instruction: when the current port is out of reset and ready, and the request on its
inputs decodes to `i`, the step is `exec i` between the acceptance (the clock edge, the host's next move) and the
presentation of a due response with the end of the turn (30_encoding.md R62, R66; this order is log 16's, and
that a step is the turn of one port is log 1's). -/
def Obligations.StepRunsDecodedInstruction : Prop :=
  ∀ (s : State) (r : Request) (i : Instr), s.rst = false → s.port.offered = some r →
    s.port.tick.ready = true → decodeRequest r = .ok i → step s = onNext State.finish (exec i s.accept)

/-- A loaded table word is the next thing to run: the step from `s.withFetchWord nbits w` is the instruction that
`decodeTableWord` reads from the word, run on the machine that offers it (the model's own way to load a program,
log 9). -/
def Obligations.LoadedWordRunsNext : Prop :=
  ∀ (s : State) (nbits w : Nat) (i : Instr), nbits ≤ 137 → decodeTableWord nbits w = some i →
    step (s.withFetchWord nbits w) = onNext State.finish (exec i (s.withFetchWord nbits w).accept) ∧
    (s.withFetchWord nbits w).accept.port.moves = s.port.moves ∧
    (s.withFetchWord nbits w).served = s.served ∧ (s.withFetchWord nbits w).waiting = s.waiting

/-- A request offered while the port is not ready is not accepted and not answered; the host holds it
(10_state.md R28). Only the clock goes on. That the delay is a counter, not yet 0 here, is the model's (log 4), and so
is the held offer among the host's moves (log 7, log 8). -/
def Obligations.RequestHeldWhileNotReady : Prop :=
  ∀ (s : State) (r : Request), s.rst = false → s.port.offered = some r → s.port.ready = false →
    s.port.initLeft ≠ 0 → s.port.inflight = [] →
    step s = .next (({ s with port := { s.port with initLeft := s.port.initLeft - 1, out := none } } : State).endTurn)

/-- The host waits with a line whose operand refers to a response that has not arrived (70_reset_and_hazards.md
R242): no request is offered, and the line stays the host's next move. (The host's moves and record are the model's:
log 7.) -/
def Obligations.HostWaitsForReference : Prop :=
  ∀ (s : State) (l : Line) (ms : List HostMove) (n : Nat), s.rst = false → s.port.moves = .offer l :: ms →
    (l.a = .yOf n ∨ l.a = .coutOf n ∨ l.b = .yOf n ∨ l.b = .coutOf n ∨ l.cin = .yOf n ∨ l.cin = .coutOf n) →
    s.port.answers.length < n →
    ∃ t q, step s = .next t ∧ t.ports[s.served.length]? = some q ∧ q.moves = .offer l :: ms ∧
      q.history = s.port.history ∧ q.draws = s.port.draws

/-- Ports are independent (60_exceptions.md R222): a step makes of the current port what its own cycle makes of it,
from that port, its number and the reset input alone, and leaves every other port as it is. That a step is one
port's part of a clock cycle, and the other ports wait for their own steps, is the model's choice (log 1): the clock
of R66 moves all ports at once. -/
def Obligations.StepIsOnePortsCycle : Prop :=
  ∀ s : State, ∃ t, step s = .next t ∧
    t.ports = s.served ++ portCycle s.rst s.served.length s.port :: s.waiting

/-- One clock cycle of the unit: as many steps as there are ports make of every port what its own cycle makes of
it, with one value of the reset input for all, and the next cycle begins (R66, R222; the order of the turns is the
model's, log 1). -/
def Obligations.ClockCycleOfAllPorts : Prop :=
  ∀ s : State, s.atCycleStart →
    ∃ t, runCycles 1 s = .next t ∧ t.atCycleStart ∧ t.rstPin = s.rstPin.tail ∧
      t.ports = s.ports.mapIdx (portCycle s.rst)

/-- The invariant holds after reset. -/
def Obligations.InvHoldsAfterReset : Prop := State.reset.Inv

/-- Every step keeps the invariant (State.Inv in Safety.lean), which speaks of the model's own counters and records
too (log 4, log 5, log 7). -/
def Obligations.StepKeepsInv : Prop := ∀ s t : State, s.Inv → step s = .next t → t.Inv

/-- Reset values (10_state.md R29): no port is ready, nothing is in flight, `rsp_valid = 0`, and there are
`N_PORTS` ports (R222). The model's counter of the initialisation delay (log 4) stands at `INIT_CYCLES`. (That the
host has no program and no record then, and that `rst` is released, are the model's choices: log 6, log 7.) -/
def Obligations.ResetValues : Prop :=
  State.reset.ports.length = Config.nPorts ∧ 1 ≤ State.reset.ports.length ∧
  ∀ p ∈ State.reset.ports,
    p.ready = false ∧ p.inflight = [] ∧ p.out = none ∧ p.initLeft = Config.initCycles

/-- A cycle with `rst = 1` (70_reset_and_hazards.md R230): of every port, `req_ready = 0`, `rsp_valid = 0`, the
queue is empty, and each request that was in flight is never answered. The last two clauses are the model's: the
host's record holds each discarded request as `none`, after what the host had already taken (log 7), and the counter
of the initialisation delay starts afresh (log 4). -/
def Obligations.ResetEmptiesEveryPort : Prop :=
  ∀ s : State, s.atCycleStart → s.rst = true →
    ∃ t, runCycles 1 s = .next t ∧ t.ports.length = s.ports.length ∧
      ∀ (m : Nat) (p q : Port), s.ports[m]? = some p → t.ports[m]? = some q →
        q.ready = false ∧ q.out = none ∧ q.inflight = [] ∧ q.initLeft = Config.initCycles ∧
        q.answers = p.answers ++ List.replicate p.inflight.length none

/-- Every port's `ready` rises exactly INIT_CYCLES cycles after the first cycle with `rst = 0`, so that it is 1
after k cycles exactly when k > INIT_CYCLES, and stays 1 (R232). The premise on `initLeft`, the model's counter of
the delay (log 4), holds after every cycle with `rst = 1` and in `State.reset`. -/
def Obligations.ReadyRisesAfterInitCycles : Prop :=
  ∀ (k : Nat) (s t : State), s.atCycleStart → (∀ b ∈ s.rstPin.take k, b = false) →
    (∀ p ∈ s.ports, p.ready = false ∧ p.initLeft = Config.initCycles) → runCycles k s = .next t →
    ∀ p ∈ t.ports, (p.ready = true ↔ Config.initCycles < k)

/-- A request accepted in a cycle has its response presented LATENCY cycles later, after the responses of the
requests accepted before it, and not earlier, whatever else is accepted meanwhile, if there is no reset
(30_encoding.md R66). In SEL's caller-undefined case it holds a draw in the model's own form (log 3). And `rsp_valid = 1` for exactly one cycle: after a cycle without reset, from any state, a
response is on the outputs exactly if the host took it in that very cycle (the host's record is log 7's), else
`rsp_valid = 0`. -/
def Obligations.ResponseAfterLatency : Prop :=
  (∀ (s : State) (m : Nat) (p : Port) (r : Request), s.Inv → s.atCycleStart →
    (∀ b ∈ s.rstPin.take (Config.latency + 1), b = false) → s.ports[m]? = some p → p.offered = some r →
    p.tick.ready = true →
    (∃ t q, runCycles (Config.latency + 1) s = .next t ∧ t.ports[m]? = some q ∧
      q.out = some (execResponse r (Config.selUndef m p.draws)) ∧
      q.answers = p.history ++ [some (execResponse r (Config.selUndef m p.draws))]) ∧
    (∀ k t q, k ≤ Config.latency → runCycles k s = .next t → t.ports[m]? = some q →
      q.answers.length ≤ p.history.length)) ∧
  (∀ s : State, s.atCycleStart → s.rst = false →
    ∃ t, runCycles 1 s = .next t ∧
      ∀ (m : Nat) (p q : Port), s.ports[m]? = some p → t.ports[m]? = some q →
        (q.out = none ∧ q.answers = p.answers) ∨ ∃ r, q.out = some r ∧ q.answers = p.answers ++ [some r])

/-- Over any run without reset, a port's history of responses only grows at its end, and so does what the host has
taken of it: responses come back in acceptance order, once each, and none is changed or lost (R66, R207; the host's record is the model's, log 7). -/
def Obligations.HistoryOnlyGrows : Prop :=
  ∀ (n : Nat) (s t : State), (∀ b ∈ s.rstPin, b = false) → run n s = .next t →
    t.ports.length = s.ports.length ∧
    ∀ (m : Nat) (p q : Port), s.ports[m]? = some p → t.ports[m]? = some q → p.history <+: q.history ∧ p.answers <+: q.answers

/-- The responses of one port do not depend on any other port (R222): two runs of the same length from machines
with the same ports count, turn, reset input and the same port m, whatever the other ports hold, keep port m the
same. (That a run takes the ports
by turns is the model's choice, log 1.) -/
def Obligations.OtherPortsDoNotMatter : Prop :=
  ∀ (n m : Nat) (s s' t t' : State), s.rstPin = s'.rstPin → s.served.length = s'.served.length →
    s.waiting.length = s'.waiting.length → s.ports[m]? = s'.ports[m]? →
    run n s = .next t → run n s' = .next t' →
    t.ports[m]? = t'.ports[m]?

/-- From every state in a cycle with `rst = 1`, and from the state after reset: every port's `ready` bit is 0 in the
cycles before INIT_CYCLES whole cycles with `rst = 0` have passed, 1 in the next one, and 1 for as long as `rst`
stays 0 (70_reset_and_hazards.md R232). That `rst` stays 0 in every run from `State.reset`, so that the second clause
needs no premise on it, is the model's choice (log 6). -/
def Obligations.ReadyRisesAfterReset : Prop :=
  (∀ (k : Nat) (s t : State), s.atCycleStart → s.rst = true → (∀ b ∈ s.rstPin.tail.take k, b = false) →
    runCycles (k + 1) s = .next t → ∀ p ∈ t.ports, (p.ready = true ↔ Config.initCycles < k)) ∧
  (∀ (k : Nat) (t : State), runCycles k State.reset = .next t →
    ∀ p ∈ t.ports, (p.ready = true ↔ Config.initCycles < k))
end

