-- ==== Sys2Proof/Laws/Operands.lean ====
section
/-! SUPPORT. Counting and locating bits: what each function of Machine/Operands.lean answers, said once. -/

namespace Sys2Proof.Machine

/-! ## Counts -/

@[simp] theorem rank_zero {w : Nat} (x : BitVec w) : rank x 0 = 0 := rfl

theorem rank_succ {w : Nat} (x : BitVec w) (n : Nat) :
    rank x (n + 1) = rank x n + (x.getLsbD n).toNat := by
  unfold rank
  rw [List.range_succ, List.countP_append]
  cases h : x.getLsbD n <;> simp [h]

@[simp] theorem countPositions_zero (f : Nat → Bool) : countPositions 0 f = 0 := rfl

theorem countPositions_succ (n : Nat) (f : Nat → Bool) :
    countPositions (n + 1) f = countPositions n f + (f n).toNat := by
  unfold countPositions
  rw [Finset.card_filter, Finset.card_filter, Fin.sum_univ_castSucc]
  cases h : f n <;> simp [h]

theorem countPositions_congr {n : Nat} {f g : Nat → Bool} (h : ∀ p, p < n → f p = g p) :
    countPositions n f = countPositions n g := by
  unfold countPositions
  congr 1
  ext p
  simp [h p.1 p.2]

theorem countPositions_le (n : Nat) (f : Nat → Bool) : countPositions n f ≤ n := by
  induction n with
  | zero => simp
  | succ n ih =>
    rw [countPositions_succ]
    have := Bool.toNat_le (f n)
    omega

/-- Counting by `rank` is counting the positions. -/
theorem rank_eq_countPositions {w : Nat} (x : BitVec w) (n : Nat) :
    rank x n = countPositions n (fun p => x.getLsbD p) := by
  induction n with
  | zero => rfl
  | succ n ih => rw [rank_succ, countPositions_succ, ih]

theorem popcount_eq_countPositions {w : Nat} (x : BitVec w) :
    popcount x = countPositions w (fun p => x.getLsbD p) := rank_eq_countPositions x w

theorem rank_le {w : Nat} (x : BitVec w) (n : Nat) : rank x n ≤ n := by
  rw [rank_eq_countPositions]; exact countPositions_le n _

theorem popcount_le {w : Nat} (x : BitVec w) : popcount x ≤ w := rank_le x w

theorem rank_mono {w : Nat} (x : BitVec w) {m n : Nat} (h : m ≤ n) : rank x m ≤ rank x n := by
  induction n, h using Nat.le_induction with
  | base => exact Nat.le_refl _
  | succ n _ ih => rw [rank_succ]; omega

/-- A count or a position fits the result word. -/
theorem zextNat_toNat {n : Nat} (h : n ≤ 64) : (zextNat n).toNat = n := by
  unfold zextNat
  rw [BitVec.toNat_ofNat]
  omega

/-! ## Positions -/

/-- `firstPos` is the first position that satisfies `f`, where there is one. -/
theorem firstPos_spec {w : Nat} {f : Nat → Bool} (h : ∃ p, p < w ∧ f p = true) :
    firstPos w f < w ∧ f (firstPos w f) = true ∧ ∀ q, q < firstPos w f → f q = false := by
  unfold firstPos
  cases hf : (List.range w).find? f with
  | none =>
    obtain ⟨p, hp, hfp⟩ := h
    have := List.find?_eq_none.mp hf p (List.mem_range.mpr hp)
    exact absurd hfp this
  | some p =>
    obtain ⟨h1, h2, h3⟩ := List.find?_range_eq_some.mp hf
    refine ⟨List.mem_range.mp h2, h1, fun q hq => ?_⟩
    simpa using h3 q hq

theorem firstPos_none {w : Nat} {f : Nat → Bool} (h : ∀ p, p < w → f p = false) : firstPos w f = 0 := by
  unfold firstPos
  rw [List.find?_eq_none.mpr (by intro p hp; simp [h p (List.mem_range.mp hp)])]
  rfl

/-- A position that is the first to satisfy `f` is `firstPos`. -/
theorem firstPos_unique {w p : Nat} {f : Nat → Bool} (hp : p < w) (hf : f p = true)
    (hq : ∀ q, q < p → f q = false) : firstPos w f = p := by
  obtain ⟨_, h2, h3⟩ := firstPos_spec ⟨p, hp, hf⟩
  rcases Nat.lt_trichotomy (firstPos w f) p with h | h | h
  · rw [hq _ h] at h2; cases h2
  · exact h
  · rw [h3 _ h] at hf; cases hf

theorem lastPos_succ (w : Nat) (f : Nat → Bool) :
    lastPos (w + 1) f = if f w = true then w else lastPos w f := by
  unfold lastPos
  rw [List.range_succ, List.reverse_append]
  cases h : f w <;> simp [h]

/-- `lastPos` is the last position that satisfies `f`, where there is one. -/
theorem lastPos_spec {w : Nat} {f : Nat → Bool} (h : ∃ p, p < w ∧ f p = true) :
    lastPos w f < w ∧ f (lastPos w f) = true ∧ ∀ q, lastPos w f < q → q < w → f q = false := by
  induction w with
  | zero => obtain ⟨p, hp, _⟩ := h; omega
  | succ w ih =>
    rw [lastPos_succ]
    by_cases hw : f w = true
    · simp only [hw, if_true]
      exact ⟨by omega, trivial, fun q h1 h2 => by omega⟩
    · simp only [hw]
      obtain ⟨p, hp, hfp⟩ := h
      have hpw : p < w := by
        rcases Nat.lt_succ_iff_lt_or_eq.mp hp with h | h
        · exact h
        · rw [h] at hfp; exact absurd hfp hw
      obtain ⟨h1, h2, h3⟩ := ih ⟨p, hpw, hfp⟩
      refine ⟨by simp; omega, by simpa using h2, fun q hq hqw => ?_⟩
      rcases Nat.lt_succ_iff_lt_or_eq.mp hqw with h | h
      · exact h3 q (by simpa using hq) h
      · rw [h]; simpa using hw

theorem lastPos_none {w : Nat} {f : Nat → Bool} (h : ∀ p, p < w → f p = false) : lastPos w f = 0 := by
  induction w with
  | zero => rfl
  | succ w ih =>
    rw [lastPos_succ, h w (by omega)]
    simpa using ih (fun p hp => h p (by omega))

/-- A nonzero word has a set bit. -/
theorem exists_set_bit {w : Nat} {x : BitVec w} (h : x ≠ 0) : ∃ p, p < w ∧ x.getLsbD p = true := by
  by_contra hc
  apply h
  apply BitVec.eq_of_getLsbD_eq
  intro p hp
  by_contra hb
  exact hc ⟨p, hp, by simpa using hb⟩

theorem hiPos_zero {w : Nat} : hiPos (0 : BitVec w) = 0 := lastPos_none (by simp)

theorem loPos_zero {w : Nat} : loPos (0 : BitVec w) = 0 := firstPos_none (by simp)

theorem hiPos_spec {w : Nat} {x : BitVec w} (h : x ≠ 0) :
    hiPos x < w ∧ x.getLsbD (hiPos x) = true ∧ ∀ q, hiPos x < q → x.getLsbD q = false := by
  obtain ⟨h1, h2, h3⟩ := lastPos_spec (f := fun p => x.getLsbD p) (exists_set_bit h)
  refine ⟨h1, h2, fun q hq => ?_⟩
  by_cases hqw : q < w
  · exact h3 q hq hqw
  · exact BitVec.getLsbD_of_ge x q (by omega)

theorem loPos_spec {w : Nat} {x : BitVec w} (h : x ≠ 0) :
    loPos x < w ∧ x.getLsbD (loPos x) = true ∧ ∀ q, q < loPos x → x.getLsbD q = false :=
  firstPos_spec (f := fun p => x.getLsbD p) (exists_set_bit h)

/-- Below a rank there is a set bit with exactly that many set bits up to it. -/
theorem exists_rank_eq {w : Nat} (x : BitVec w) {k n : Nat} (hk : 1 ≤ k) (h : k ≤ rank x n) :
    ∃ p, p < n ∧ x.getLsbD p = true ∧ rank x (p + 1) = k := by
  induction n with
  | zero => simp at h; omega
  | succ n ih =>
    by_cases hn : k ≤ rank x n
    · obtain ⟨p, hp, h1, h2⟩ := ih hn
      exact ⟨p, by omega, h1, h2⟩
    · rw [rank_succ] at h
      have hb : x.getLsbD n = true := by
        cases hx : x.getLsbD n
        · rw [hx] at h; simp at h; omega
        · rfl
      refine ⟨n, by omega, hb, ?_⟩
      rw [rank_succ, hb]
      rw [hb] at h
      simp at h ⊢
      omega

/-- `selPos x k` is a set position with exactly `k` set bits up to it, for `1 <= k <= popcount x`. -/
theorem selPos_spec {w : Nat} (x : BitVec w) {k : Nat} (hk : 1 ≤ k) (h : k ≤ popcount x) :
    selPos x k < w ∧ x.getLsbD (selPos x k) = true ∧ rank x (selPos x k + 1) = k := by
  obtain ⟨p, hp, h1, h2⟩ := exists_rank_eq x hk h
  obtain ⟨ha, hb, _⟩ := firstPos_spec (f := fun p => x.getLsbD p && rank x (p + 1) == k)
    ⟨p, hp, by simp [h1, h2]⟩
  simp only [Bool.and_eq_true, beq_iff_eq] at hb
  exact ⟨ha, hb.1, hb.2⟩

/-- A set position is determined by the number of set bits up to it. -/
theorem rank_inj {w : Nat} {x : BitVec w} {p q : Nat} (hp : x.getLsbD p = true) (hq : x.getLsbD q = true)
    (h : rank x (p + 1) = rank x (q + 1)) : p = q := by
  rcases Nat.lt_trichotomy p q with hlt | heq | hlt
  · have := rank_mono x (show p + 1 ≤ q by omega)
    rw [rank_succ x q, hq] at h
    simp at h
    omega
  · exact heq
  · have := rank_mono x (show q + 1 ≤ p by omega)
    rw [rank_succ x p, hp] at h
    simp at h
    omega

theorem selPos_unique {w : Nat} {x : BitVec w} {k p : Nat} (hk : 1 ≤ k) (h : k ≤ popcount x)
    (hp : x.getLsbD p = true) (hr : rank x (p + 1) = k) : selPos x k = p := by
  obtain ⟨_, h2, h3⟩ := selPos_spec x hk h
  exact rank_inj h2 hp (by rw [h3, hr])

/-! ## Windows (44_pair_counter.md R160) -/

theorem bitsBefore_getLsbD (a : Word) (c : Bool) {i : Nat} (h : i < 64) :
    (bitsBefore a c).getLsbD i = bitBefore a c i := by
  unfold bitsBefore bitBefore zext
  rcases Nat.eq_zero_or_pos i with h0 | h0
  · subst h0; cases c <;> simp
  · have : ¬ i = 0 := by omega
    have hc : (BitVec.setWidth 64 (BitVec.ofBool c)).getLsbD i = false := by
      rw [BitVec.getLsbD_setWidth, BitVec.getLsbD_of_ge _ _ (by omega)]; simp
    simp only [BitVec.getLsbD_or, BitVec.getLsbD_shiftLeft, hc, this, h, decide_true, if_false,
      show ¬ i < 1 by omega, decide_false, Bool.not_false, Bool.true_and, Bool.or_false]

theorem m11_getLsbD (a : Word) (c : Bool) {i : Nat} (h : i < 64) :
    (m11 a c).getLsbD i = (bitBefore a c i && a.getLsbD i) := by
  simp [m11, bitsBefore_getLsbD a c h]

theorem m10_getLsbD (a : Word) (c : Bool) {i : Nat} (h : i < 64) :
    (m10 a c).getLsbD i = (bitBefore a c i && !a.getLsbD i) := by
  simp only [m10, BitVec.getLsbD_and, BitVec.getLsbD_not, bitsBefore_getLsbD a c h, h, decide_true, Bool.true_and]

theorem m01_getLsbD (a : Word) (c : Bool) {i : Nat} (h : i < 64) :
    (m01 a c).getLsbD i = (!bitBefore a c i && a.getLsbD i) := by
  simp only [m01, BitVec.getLsbD_and, BitVec.getLsbD_not, bitsBefore_getLsbD a c h, h, decide_true, Bool.true_and]

theorem m00_getLsbD (a : Word) (c : Bool) {i : Nat} (h : i < 64) :
    (m00 a c).getLsbD i = (!bitBefore a c i && !a.getLsbD i) := by
  simp only [m00, BitVec.getLsbD_and, BitVec.getLsbD_not, bitsBefore_getLsbD a c h, h, decide_true, Bool.true_and]

/-! ## Bytes -/

theorem byteOf_getLsbD (x : Word) (j p : Nat) :
    (byteOf x j).getLsbD p = (decide (p < 8) && x.getLsbD (8 * j + p)) := by
  simp [byteOf]

theorem lowHalf_getLsbD (x : Word) (p : Nat) :
    (lowHalf x).getLsbD p = (decide (p < 32) && x.getLsbD p) := by
  simp [lowHalf]

end Sys2Proof.Machine
end

