-- ==== Sys2Proof/Laws/State.lean ====
section
/-! SUPPORT. What each update of the state leaves in each field. -/

namespace Sys2Proof.Machine

/-! ## Answering -/

@[simp] theorem respond_rstPin (s : State) (r : Response) : (s.respond r).rstPin = s.rstPin := rfl
@[simp] theorem respond_served (s : State) (r : Response) : (s.respond r).served = s.served := rfl
@[simp] theorem respond_waiting (s : State) (r : Response) : (s.respond r).waiting = s.waiting := rfl
@[simp] theorem respond_ready (s : State) (r : Response) : (s.respond r).port.ready = s.port.ready := rfl
@[simp] theorem respond_initLeft (s : State) (r : Response) : (s.respond r).port.initLeft = s.port.initLeft := rfl
@[simp] theorem respond_inflight (s : State) (r : Response) :
    (s.respond r).port.inflight = s.port.inflight ++ [⟨r, Config.latency⟩] := rfl
@[simp] theorem respond_out (s : State) (r : Response) : (s.respond r).port.out = s.port.out := rfl
@[simp] theorem respond_draws (s : State) (r : Response) : (s.respond r).port.draws = s.port.draws := rfl
@[simp] theorem respond_moves (s : State) (r : Response) : (s.respond r).port.moves = s.port.moves := rfl
@[simp] theorem respond_answers (s : State) (r : Response) : (s.respond r).port.answers = s.port.answers := rfl

/-- The statements' `withResponse` is the machine's `respond`. -/
theorem respond_eq_withResponse (s : State) (r : Response) : s.respond r = s.withResponse r := rfl

@[simp] theorem afterDraw_rstPin (s : State) : s.afterDraw.rstPin = s.rstPin := rfl
@[simp] theorem afterDraw_served (s : State) : s.afterDraw.served = s.served := rfl
@[simp] theorem afterDraw_waiting (s : State) : s.afterDraw.waiting = s.waiting := rfl
@[simp] theorem afterDraw_ready (s : State) : s.afterDraw.port.ready = s.port.ready := rfl
@[simp] theorem afterDraw_initLeft (s : State) : s.afterDraw.port.initLeft = s.port.initLeft := rfl
@[simp] theorem afterDraw_inflight (s : State) : s.afterDraw.port.inflight = s.port.inflight := rfl
@[simp] theorem afterDraw_out (s : State) : s.afterDraw.port.out = s.port.out := rfl
@[simp] theorem afterDraw_draws (s : State) : s.afterDraw.port.draws = s.port.draws + 1 := rfl
@[simp] theorem afterDraw_moves (s : State) : s.afterDraw.port.moves = s.port.moves := rfl
@[simp] theorem afterDraw_answers (s : State) : s.afterDraw.port.answers = s.port.answers := rfl

/-! ## The parts of a cycle, on a port -/

@[simp] theorem popMove_ready (p : Port) : p.popMove.ready = p.ready := rfl
@[simp] theorem popMove_initLeft (p : Port) : p.popMove.initLeft = p.initLeft := rfl
@[simp] theorem popMove_inflight (p : Port) : p.popMove.inflight = p.inflight := rfl
@[simp] theorem popMove_out (p : Port) : p.popMove.out = p.out := rfl
@[simp] theorem popMove_draws (p : Port) : p.popMove.draws = p.draws := rfl
@[simp] theorem popMove_moves (p : Port) : p.popMove.moves = p.moves.tail := rfl
@[simp] theorem popMove_answers (p : Port) : p.popMove.answers = p.answers := rfl

@[simp] theorem passIdle_ready (p : Port) : p.passIdle.ready = p.ready := by unfold Port.passIdle; split <;> rfl
@[simp] theorem passIdle_initLeft (p : Port) : p.passIdle.initLeft = p.initLeft := by
  unfold Port.passIdle; split <;> rfl
@[simp] theorem passIdle_inflight (p : Port) : p.passIdle.inflight = p.inflight := by
  unfold Port.passIdle; split <;> rfl
@[simp] theorem passIdle_out (p : Port) : p.passIdle.out = p.out := by unfold Port.passIdle; split <;> rfl
@[simp] theorem passIdle_draws (p : Port) : p.passIdle.draws = p.draws := by unfold Port.passIdle; split <;> rfl
@[simp] theorem passIdle_answers (p : Port) : p.passIdle.answers = p.answers := by
  unfold Port.passIdle; split <;> rfl

/-- An offer is held. -/
theorem passIdle_moves_offer {p : Port} {l : Line} {ms : List HostMove} (h : p.moves = .offer l :: ms) :
    p.passIdle.moves = p.moves := by
  unfold Port.passIdle; simp [h]

@[simp] theorem resetCycle_ready (p : Port) : p.resetCycle.ready = false := rfl
@[simp] theorem resetCycle_initLeft (p : Port) : p.resetCycle.initLeft = Config.initCycles := rfl
@[simp] theorem resetCycle_inflight (p : Port) : p.resetCycle.inflight = [] := rfl
@[simp] theorem resetCycle_out (p : Port) : p.resetCycle.out = none := rfl
@[simp] theorem resetCycle_draws (p : Port) : p.resetCycle.draws = p.draws := passIdle_draws p
@[simp] theorem resetCycle_moves (p : Port) : p.resetCycle.moves = p.passIdle.moves := rfl
@[simp] theorem resetCycle_answers (p : Port) :
    p.resetCycle.answers = p.answers ++ p.inflight.map (fun _ => none) := rfl

@[simp] theorem tick_ready (p : Port) : p.tick.ready = (p.ready || p.initLeft == 0) := rfl
@[simp] theorem tick_initLeft (p : Port) : p.tick.initLeft = p.initLeft - 1 := rfl
@[simp] theorem tick_inflight (p : Port) :
    p.tick.inflight = p.inflight.map (fun f => { f with due := f.due - 1 }) := rfl
@[simp] theorem tick_out (p : Port) : p.tick.out = none := rfl
@[simp] theorem tick_draws (p : Port) : p.tick.draws = p.draws := rfl
@[simp] theorem tick_moves (p : Port) : p.tick.moves = p.moves := rfl
@[simp] theorem tick_answers (p : Port) : p.tick.answers = p.answers := rfl

@[simp] theorem deliver_ready (p : Port) : p.deliver.ready = p.ready := by unfold Port.deliver; split <;> rfl
@[simp] theorem deliver_initLeft (p : Port) : p.deliver.initLeft = p.initLeft := by
  unfold Port.deliver; split <;> rfl
@[simp] theorem deliver_draws (p : Port) : p.deliver.draws = p.draws := by unfold Port.deliver; split <;> rfl
@[simp] theorem deliver_moves (p : Port) : p.deliver.moves = p.moves := by unfold Port.deliver; split <;> rfl

/-! ## Histories -/

@[simp] theorem tick_history (p : Port) : p.tick.history = p.history := by
  simp [Port.history, Function.comp_def]

@[simp] theorem popMove_history (p : Port) : p.popMove.history = p.history := rfl

@[simp] theorem passIdle_history (p : Port) : p.passIdle.history = p.history := by simp [Port.history]

/-- Presentation moves a response from the queue to the host's record, at the same place of the history. -/
@[simp] theorem deliver_history (p : Port) : p.deliver.history = p.history := by
  unfold Port.deliver
  split
  · rename_i r rest h; simp [Port.history, h]
  · rfl

/-! ## Ports and turns -/

@[simp] theorem onPort_rstPin (f : Port → Port) (s : State) : (s.onPort f).rstPin = s.rstPin := rfl
@[simp] theorem onPort_served (f : Port → Port) (s : State) : (s.onPort f).served = s.served := rfl
@[simp] theorem onPort_waiting (f : Port → Port) (s : State) : (s.onPort f).waiting = s.waiting := rfl
@[simp] theorem onPort_port (f : Port → Port) (s : State) : (s.onPort f).port = f s.port := rfl

/-- The end of a turn moves no port to another number and changes none. -/
@[simp] theorem endTurn_ports (s : State) : s.endTurn.ports = s.ports := by
  unfold State.endTurn State.ports
  cases hw : s.waiting with
  | cons q qs => simp
  | nil => cases hs : s.served <;> simp

theorem endTurn_of_waiting {s : State} {q : Port} {qs : List Port} (h : s.waiting = q :: qs) :
    s.endTurn = { s with served := s.served ++ [s.port], port := q, waiting := qs } := by
  simp [State.endTurn, h]

/-- After the last port's turn the next clock cycle begins. -/
theorem endTurn_of_last {s : State} (h : s.waiting = []) :
    s.endTurn.served = [] ∧ s.endTurn.rstPin = s.rstPin.tail := by
  unfold State.endTurn
  cases s.served <;> simp [h]

end Sys2Proof.Machine
end

