-- ==== Sys2Proof/Laws/Ops.lean ====
section
/-! SUPPORT. What each shared operation answers, said once, and what a step can do. -/

namespace Sys2Proof.Machine

theorem complete_eq (y : Word) (cout : Bool) (s : State) :
    complete y cout s = .next (s.withResponse ⟨y, cout, .ok⟩) := rfl

theorem raise_eq (e : Status) (s : State) : raise e s = .next (s.withResponse (errorResponse e)) := rfl

theorem tableRead_of_lt {t : TableId} {k : Word} (h : k.toNat < tableLen t) (s : State) :
    tableRead t k s = .next (s.withResponse ⟨tblRead t k.toNat, false, .ok⟩) := by
  unfold tableRead
  rw [if_neg (by omega)]
  rfl

theorem tableRead_of_ge {t : TableId} {k : Word} (h : tableLen t ≤ k.toNat) (s : State) :
    tableRead t k s = .next (s.withResponse (errorResponse .tableRange)) := by
  unfold tableRead
  rw [if_pos h]
  rfl

theorem exec_ofTable (t : TableId) (k : Word) (s : State) : exec (Instr.ofTable k t) s = tableRead t k s := by
  cases t <;> rfl

/-- A line that offers a request with literal operands offers exactly that request. -/
@[simp] theorem resolveLine_ofRequest (answers : List (Option Response)) (r : Request) :
    resolveLine answers (Line.ofRequest r) = some r := by
  cases r with
  | mk cmd a b cin => cases cin <;> rfl

/-- A cycle either resets the port, accepts the offered request, or lets the port's clock go on. -/
theorem cycle_cases (s : State) :
    (s.rst = true ∧ cycle s = .next (s.onPort Port.resetCycle).endTurn) ∨
    (s.rst = false ∧ ∃ r, s.port.offered = some r ∧ s.port.tick.ready = true ∧
      cycle s = onNext State.finish (serve r s.accept)) ∨
    (s.rst = false ∧ (∃ r, s.port.offered = some r ∧ s.port.tick.ready = false) ∧
      cycle s = .next (s.onPort Port.tick).finish) ∨
    (s.rst = false ∧ s.port.offered = none ∧
      cycle s = .next (s.onPort (fun p => p.tick.passIdle)).finish) := by
  unfold cycle
  cases hr : s.rst with
  | true => exact .inl ⟨rfl, by simp⟩
  | false =>
    cases ho : s.port.offered with
    | none => exact .inr (.inr (.inr ⟨rfl, rfl, by simp⟩))
    | some r =>
      cases ht : s.port.tick.ready with
      | true => exact .inr (.inl ⟨rfl, r, rfl, rfl, by simp⟩)
      | false => exact .inr (.inr (.inl ⟨rfl, ⟨r, rfl, rfl⟩, by simp⟩))

end Sys2Proof.Machine
end

