-- ==== Sys2Proof/Laws/PerInstr.lean ====
section
/-! SUPPORT. Laws of every instruction's syntax, one lemma per constructor. -/

namespace Sys2Proof.Laws

/-- The fields of `r` that the row of `o` in 30_encoding.md R69 does not list are 0 (R74). -/
def unlistedZero (r : Request) : Op → Prop
  | .cnt | .cnt32 | .cnt8 | .hi | .lo | .cnt11 => r.b = 0 ∧ r.cin = false
  | .cnt11c | .cnt10c | .cnt01c | .map10 | .map01 => r.b = 0
  | .sel => r.cin = false
  | .trd _ => r.a = 0 ∧ r.cin = false

/-- The request an instruction is encoded as carries the code of one operation of the map, that operation reads
the instruction back from it, and its unlisted fields are 0. -/
def EncodeShape.Statement (i : Instr) : Prop :=
  ∃ o : Op, Op.ofCode (encodeRequest i).cmd = some o ∧ (encodeRequest i).cmd = o.code ∧
    o.instr (encodeRequest i) = i ∧ unlistedZero (encodeRequest i) o

theorem EncodeShape.cnt (a : Word) : EncodeShape.Statement (.cnt a) :=
  ⟨.cnt, rfl, rfl, rfl, ⟨rfl, rfl⟩⟩

theorem EncodeShape.cnt32 (a : Word) : EncodeShape.Statement (.cnt32 a) :=
  ⟨.cnt32, rfl, rfl, rfl, ⟨rfl, rfl⟩⟩

theorem EncodeShape.cnt8 (a : Word) : EncodeShape.Statement (.cnt8 a) :=
  ⟨.cnt8, rfl, rfl, rfl, ⟨rfl, rfl⟩⟩

theorem EncodeShape.hi (a : Word) : EncodeShape.Statement (.hi a) :=
  ⟨.hi, rfl, rfl, rfl, ⟨rfl, rfl⟩⟩

theorem EncodeShape.lo (a : Word) : EncodeShape.Statement (.lo a) :=
  ⟨.lo, rfl, rfl, rfl, ⟨rfl, rfl⟩⟩

theorem EncodeShape.cnt11 (a : Word) : EncodeShape.Statement (.cnt11 a) :=
  ⟨.cnt11, rfl, rfl, rfl, ⟨rfl, rfl⟩⟩

theorem EncodeShape.cnt11c (a : Word) (c : Bool) : EncodeShape.Statement (.cnt11c a c) :=
  ⟨.cnt11c, rfl, rfl, rfl, rfl⟩

theorem EncodeShape.cnt10c (a : Word) (c : Bool) : EncodeShape.Statement (.cnt10c a c) :=
  ⟨.cnt10c, rfl, rfl, rfl, rfl⟩

theorem EncodeShape.cnt01c (a : Word) (c : Bool) : EncodeShape.Statement (.cnt01c a c) :=
  ⟨.cnt01c, rfl, rfl, rfl, rfl⟩

theorem EncodeShape.map10 (a : Word) (c : Bool) : EncodeShape.Statement (.map10 a c) :=
  ⟨.map10, rfl, rfl, rfl, rfl⟩

theorem EncodeShape.map01 (a : Word) (c : Bool) : EncodeShape.Statement (.map01 a c) :=
  ⟨.map01, rfl, rfl, rfl, rfl⟩

theorem EncodeShape.sel (a : Word) (i : Word) : EncodeShape.Statement (.sel a i) :=
  ⟨.sel, rfl, rfl, rfl, rfl⟩

theorem EncodeShape.trdAllset (k : Word) : EncodeShape.Statement (.trdAllset k) :=
  ⟨.trd .allSet, rfl, rfl, rfl, ⟨rfl, rfl⟩⟩

theorem EncodeShape.trdDebruijn (k : Word) : EncodeShape.Statement (.trdDebruijn k) :=
  ⟨.trd .deBruijn64, rfl, rfl, rfl, ⟨rfl, rfl⟩⟩

theorem EncodeShape.trdDb2idx (k : Word) : EncodeShape.Statement (.trdDb2idx k) :=
  ⟨.trd .ltDeBruijnToIdx, rfl, rfl, rfl, ⟨rfl, rfl⟩⟩

theorem EncodeShape.trdFib (k : Word) : EncodeShape.Statement (.trdFib k) :=
  ⟨.trd .ltFib, rfl, rfl, rfl, ⟨rfl, rfl⟩⟩

theorem EncodeShape.trdCnt (k : Word) : EncodeShape.Statement (.trdCnt k) :=
  ⟨.trd .ltCnt, rfl, rfl, rfl, ⟨rfl, rfl⟩⟩

theorem EncodeShape.trdHi (k : Word) : EncodeShape.Statement (.trdHi k) :=
  ⟨.trd .ltHi, rfl, rfl, rfl, ⟨rfl, rfl⟩⟩

theorem EncodeShape.trdLo (k : Word) : EncodeShape.Statement (.trdLo k) :=
  ⟨.trd .ltLo, rfl, rfl, rfl, ⟨rfl, rfl⟩⟩

theorem EncodeShape.trdLoset (k : Word) : EncodeShape.Statement (.trdLoset k) :=
  ⟨.trd .loSet, rfl, rfl, rfl, ⟨rfl, rfl⟩⟩

theorem EncodeShape.trdLounset (k : Word) : EncodeShape.Statement (.trdLounset k) :=
  ⟨.trd .loUnset, rfl, rfl, rfl, ⟨rfl, rfl⟩⟩

theorem EncodeShape.trdSel (k : Word) : EncodeShape.Statement (.trdSel k) :=
  ⟨.trd .ltSel, rfl, rfl, rfl, ⟨rfl, rfl⟩⟩

theorem EncodeShape.trdPsovf (k : Word) : EncodeShape.Statement (.trdPsovf k) :=
  ⟨.trd .psOverflow, rfl, rfl, rfl, ⟨rfl, rfl⟩⟩

end Sys2Proof.Laws
end

