-- ==== Sys2Proof/Machine/RomChecks.lean ====
section
/-! DEFINITION. The self-checks that 41_constant_tables.md R122 asks of the ROM: every table against the listing
that section 3 prints of it (or, for the two scalars, against rules R100 and R101), and the relations of `lo_set`
and `lo_unset`. -/

namespace Sys2Proof.Machine

/-! ## The listings of section 3, as printed -/

/-- Section 3.1. -/
def listingDeBruijn : List Nat :=
  [0, 1, 2, 7, 3, 13, 8, 19, 4, 25, 14, 28, 9, 34, 20, 40,
   5, 17, 26, 38, 15, 46, 29, 48, 10, 31, 35, 54, 21, 50, 41, 57]
  ++ [63, 6, 12, 18, 24, 27, 33, 39, 16, 37, 45, 47, 30, 53, 49, 56,
   62, 11, 23, 32, 36, 44, 52, 55, 61, 22, 43, 51, 60, 42, 59, 58]

/-- Section 3.2. -/
def listingFib : List Nat :=
  [1, 2, 3, 5,
   8, 13, 21, 34,
   55, 89, 144, 233,
   377, 610, 987, 1597,
   2584, 4181, 6765, 10946,
   17711, 28657, 46368, 75025,
   121393, 196418, 317811, 514229,
   832040, 1346269, 2178309]
  ++ [3524578, 5702887, 9227465, 14930352,
   24157817, 39088169, 63245986, 102334155,
   165580141, 267914296, 433494437, 701408733,
   1134903170, 1836311903, 2971215073, 4807526976,
   7778742049, 12586269025, 20365011074, 32951280099,
   53316291173, 86267571272, 139583862445, 225851433717,
   365435296162, 591286729879, 956722026041, 1548008755920,
   2504730781961, 4052739537881, 6557470319842]
  ++ [10610209857723, 17167680177565, 27777890035288, 44945570212853,
   72723460248141, 117669030460994, 190392490709135, 308061521170129,
   498454011879264, 806515533049393, 1304969544928657, 2111485077978050,
   3416454622906707, 5527939700884757, 8944394323791464, 14472334024676221,
   23416728348467685, 37889062373143906, 61305790721611591, 99194853094755497,
   160500643816367088, 259695496911122585, 420196140727489673, 679891637638612258,
   1100087778366101931, 1779979416004714189, 2880067194370816120, 4660046610375530309,
   7540113804746346429, 12200160415121876738]

/-- The `n` entries of a printed row, one hexadecimal digit each, the leftmost first. -/
def rowEntries (n row : Nat) : List Nat := (List.range n).map (fun c => row / 16 ^ (n - 1 - c) % 16)

/-- Section 3.3: one row for each high digit of the byte. -/
def listingCnt : List Nat :=
  List.flatMap (rowEntries 16) ([0x0112122312232334, 0x1223233423343445, 0x1223233423343445, 0x2334344534454556,
    0x1223233423343445, 0x2334344534454556, 0x2334344534454556, 0x3445455645565667,
    0x1223233423343445, 0x2334344534454556, 0x2334344534454556, 0x3445455645565667,
    0x2334344534454556, 0x3445455645565667, 0x3445455645565667, 0x4556566756676778])

/-- Section 3.4: one row for each high digit of the byte. -/
def listingHi : List Nat :=
  List.flatMap (rowEntries 16) ([0x0011222233333333, 0x4444444444444444, 0x5555555555555555, 0x5555555555555555,
    0x6666666666666666, 0x6666666666666666, 0x6666666666666666, 0x6666666666666666,
    0x7777777777777777, 0x7777777777777777, 0x7777777777777777, 0x7777777777777777,
    0x7777777777777777, 0x7777777777777777, 0x7777777777777777, 0x7777777777777777])

/-- Section 3.5: one row for each high digit of the byte. -/
def listingLo : List Nat :=
  List.flatMap (rowEntries 16) ([0x0010201030102010, 0x4010201030102010, 0x5010201030102010, 0x4010201030102010,
    0x6010201030102010, 0x4010201030102010, 0x5010201030102010, 0x4010201030102010,
    0x7010201030102010, 0x4010201030102010, 0x5010201030102010, 0x4010201030102010,
    0x6010201030102010, 0x4010201030102010, 0x5010201030102010, 0x4010201030102010])

/-- Section 3.6, column `lo_set`. -/
def listingLoSet : List Word :=
  [0x0000000000000000, 0x0000000000000001, 0x0000000000000003, 0x0000000000000007, 0x000000000000000F,
   0x000000000000001F, 0x000000000000003F, 0x000000000000007F, 0x00000000000000FF, 0x00000000000001FF,
   0x00000000000003FF, 0x00000000000007FF, 0x0000000000000FFF, 0x0000000000001FFF, 0x0000000000003FFF,
   0x0000000000007FFF, 0x000000000000FFFF, 0x000000000001FFFF, 0x000000000003FFFF, 0x000000000007FFFF,
   0x00000000000FFFFF, 0x00000000001FFFFF, 0x00000000003FFFFF, 0x00000000007FFFFF, 0x0000000000FFFFFF,
   0x0000000001FFFFFF, 0x0000000003FFFFFF, 0x0000000007FFFFFF, 0x000000000FFFFFFF, 0x000000001FFFFFFF,
   0x000000003FFFFFFF, 0x000000007FFFFFFF, 0x00000000FFFFFFFF]
  ++ [0x00000001FFFFFFFF, 0x00000003FFFFFFFF, 0x00000007FFFFFFFF, 0x0000000FFFFFFFFF, 0x0000001FFFFFFFFF,
   0x0000003FFFFFFFFF, 0x0000007FFFFFFFFF, 0x000000FFFFFFFFFF, 0x000001FFFFFFFFFF, 0x000003FFFFFFFFFF,
   0x000007FFFFFFFFFF, 0x00000FFFFFFFFFFF, 0x00001FFFFFFFFFFF, 0x00003FFFFFFFFFFF, 0x00007FFFFFFFFFFF,
   0x0000FFFFFFFFFFFF, 0x0001FFFFFFFFFFFF, 0x0003FFFFFFFFFFFF, 0x0007FFFFFFFFFFFF, 0x000FFFFFFFFFFFFF,
   0x001FFFFFFFFFFFFF, 0x003FFFFFFFFFFFFF, 0x007FFFFFFFFFFFFF, 0x00FFFFFFFFFFFFFF, 0x01FFFFFFFFFFFFFF,
   0x03FFFFFFFFFFFFFF, 0x07FFFFFFFFFFFFFF, 0x0FFFFFFFFFFFFFFF, 0x1FFFFFFFFFFFFFFF, 0x3FFFFFFFFFFFFFFF,
   0x7FFFFFFFFFFFFFFF, 0xFFFFFFFFFFFFFFFF]

/-- Section 3.6, column `lo_unset`. -/
def listingLoUnset : List Word :=
  [0xFFFFFFFFFFFFFFFF, 0xFFFFFFFFFFFFFFFE, 0xFFFFFFFFFFFFFFFC, 0xFFFFFFFFFFFFFFF8, 0xFFFFFFFFFFFFFFF0,
   0xFFFFFFFFFFFFFFE0, 0xFFFFFFFFFFFFFFC0, 0xFFFFFFFFFFFFFF80, 0xFFFFFFFFFFFFFF00, 0xFFFFFFFFFFFFFE00,
   0xFFFFFFFFFFFFFC00, 0xFFFFFFFFFFFFF800, 0xFFFFFFFFFFFFF000, 0xFFFFFFFFFFFFE000, 0xFFFFFFFFFFFFC000,
   0xFFFFFFFFFFFF8000, 0xFFFFFFFFFFFF0000, 0xFFFFFFFFFFFE0000, 0xFFFFFFFFFFFC0000, 0xFFFFFFFFFFF80000,
   0xFFFFFFFFFFF00000, 0xFFFFFFFFFFE00000, 0xFFFFFFFFFFC00000, 0xFFFFFFFFFF800000, 0xFFFFFFFFFF000000,
   0xFFFFFFFFFE000000, 0xFFFFFFFFFC000000, 0xFFFFFFFFF8000000, 0xFFFFFFFFF0000000, 0xFFFFFFFFE0000000,
   0xFFFFFFFFC0000000, 0xFFFFFFFF80000000, 0xFFFFFFFF00000000]
  ++ [0xFFFFFFFE00000000, 0xFFFFFFFC00000000, 0xFFFFFFF800000000, 0xFFFFFFF000000000, 0xFFFFFFE000000000,
   0xFFFFFFC000000000, 0xFFFFFF8000000000, 0xFFFFFF0000000000, 0xFFFFFE0000000000, 0xFFFFFC0000000000,
   0xFFFFF80000000000, 0xFFFFF00000000000, 0xFFFFE00000000000, 0xFFFFC00000000000, 0xFFFF800000000000,
   0xFFFF000000000000, 0xFFFE000000000000, 0xFFFC000000000000, 0xFFF8000000000000, 0xFFF0000000000000,
   0xFFE0000000000000, 0xFFC0000000000000, 0xFF80000000000000, 0xFF00000000000000, 0xFE00000000000000,
   0xFC00000000000000, 0xF800000000000000, 0xF000000000000000, 0xE000000000000000, 0xC000000000000000,
   0x8000000000000000, 0x0000000000000000]

/-- Section 3.7: for each byte, the positions of its row as hexadecimal digits, the first leftmost (0 for the byte 0,
which has none). -/
def listingSel : List Nat :=
  [0x0, 0x0, 0x1, 0x01, 0x2, 0x02, 0x12, 0x012,
   0x3, 0x03, 0x13, 0x013, 0x23, 0x023, 0x123, 0x0123,
   0x4, 0x04, 0x14, 0x014, 0x24, 0x024, 0x124, 0x0124,
   0x34, 0x034, 0x134, 0x0134, 0x234, 0x0234, 0x1234, 0x01234]
  ++ [0x5, 0x05, 0x15, 0x015, 0x25, 0x025, 0x125, 0x0125,
   0x35, 0x035, 0x135, 0x0135, 0x235, 0x0235, 0x1235, 0x01235,
   0x45, 0x045, 0x145, 0x0145, 0x245, 0x0245, 0x1245, 0x01245,
   0x345, 0x0345, 0x1345, 0x01345, 0x2345, 0x02345, 0x12345, 0x012345]
  ++ [0x6, 0x06, 0x16, 0x016, 0x26, 0x026, 0x126, 0x0126,
   0x36, 0x036, 0x136, 0x0136, 0x236, 0x0236, 0x1236, 0x01236,
   0x46, 0x046, 0x146, 0x0146, 0x246, 0x0246, 0x1246, 0x01246,
   0x346, 0x0346, 0x1346, 0x01346, 0x2346, 0x02346, 0x12346, 0x012346]
  ++ [0x56, 0x056, 0x156, 0x0156, 0x256, 0x0256, 0x1256, 0x01256,
   0x356, 0x0356, 0x1356, 0x01356, 0x2356, 0x02356, 0x12356, 0x012356,
   0x456, 0x0456, 0x1456, 0x01456, 0x2456, 0x02456, 0x12456, 0x012456,
   0x3456, 0x03456, 0x13456, 0x013456, 0x23456, 0x023456, 0x123456, 0x0123456]
  ++ [0x7, 0x07, 0x17, 0x017, 0x27, 0x027, 0x127, 0x0127,
   0x37, 0x037, 0x137, 0x0137, 0x237, 0x0237, 0x1237, 0x01237,
   0x47, 0x047, 0x147, 0x0147, 0x247, 0x0247, 0x1247, 0x01247,
   0x347, 0x0347, 0x1347, 0x01347, 0x2347, 0x02347, 0x12347, 0x012347]
  ++ [0x57, 0x057, 0x157, 0x0157, 0x257, 0x0257, 0x1257, 0x01257,
   0x357, 0x0357, 0x1357, 0x01357, 0x2357, 0x02357, 0x12357, 0x012357,
   0x457, 0x0457, 0x1457, 0x01457, 0x2457, 0x02457, 0x12457, 0x012457,
   0x3457, 0x03457, 0x13457, 0x013457, 0x23457, 0x023457, 0x123457, 0x0123457]
  ++ [0x67, 0x067, 0x167, 0x0167, 0x267, 0x0267, 0x1267, 0x01267,
   0x367, 0x0367, 0x1367, 0x01367, 0x2367, 0x02367, 0x12367, 0x012367,
   0x467, 0x0467, 0x1467, 0x01467, 0x2467, 0x02467, 0x12467, 0x012467,
   0x3467, 0x03467, 0x13467, 0x013467, 0x23467, 0x023467, 0x123467, 0x0123467]
  ++ [0x567, 0x0567, 0x1567, 0x01567, 0x2567, 0x02567, 0x12567, 0x012567,
   0x3567, 0x03567, 0x13567, 0x013567, 0x23567, 0x023567, 0x123567, 0x0123567,
   0x4567, 0x04567, 0x14567, 0x014567, 0x24567, 0x024567, 0x124567, 0x0124567,
   0x34567, 0x034567, 0x134567, 0x0134567, 0x234567, 0x0234567, 0x1234567, 0x01234567]

/-- Section 3.8. -/
def listingPsOverflow : List Word :=
  [0x8080808080808080, 0x7F7F7F7F7F7F7F7F, 0x7E7E7E7E7E7E7E7E, 0x7D7D7D7D7D7D7D7D, 0x7C7C7C7C7C7C7C7C,
   0x7B7B7B7B7B7B7B7B, 0x7A7A7A7A7A7A7A7A, 0x7979797979797979, 0x7878787878787878, 0x7777777777777777,
   0x7676767676767676, 0x7575757575757575, 0x7474747474747474, 0x7373737373737373, 0x7272727272727272,
   0x7171717171717171, 0x7070707070707070, 0x6F6F6F6F6F6F6F6F, 0x6E6E6E6E6E6E6E6E, 0x6D6D6D6D6D6D6D6D,
   0x6C6C6C6C6C6C6C6C, 0x6B6B6B6B6B6B6B6B, 0x6A6A6A6A6A6A6A6A, 0x6969696969696969, 0x6868686868686868,
   0x6767676767676767, 0x6666666666666666, 0x6565656565656565, 0x6464646464646464, 0x6363636363636363,
   0x6262626262626262, 0x6161616161616161, 0x6060606060606060]
  ++ [0x5F5F5F5F5F5F5F5F, 0x5E5E5E5E5E5E5E5E, 0x5D5D5D5D5D5D5D5D, 0x5C5C5C5C5C5C5C5C, 0x5B5B5B5B5B5B5B5B,
   0x5A5A5A5A5A5A5A5A, 0x5959595959595959, 0x5858585858585858, 0x5757575757575757, 0x5656565656565656,
   0x5555555555555555, 0x5454545454545454, 0x5353535353535353, 0x5252525252525252, 0x5151515151515151,
   0x5050505050505050, 0x4F4F4F4F4F4F4F4F, 0x4E4E4E4E4E4E4E4E, 0x4D4D4D4D4D4D4D4D, 0x4C4C4C4C4C4C4C4C,
   0x4B4B4B4B4B4B4B4B, 0x4A4A4A4A4A4A4A4A, 0x4949494949494949, 0x4848484848484848, 0x4747474747474747,
   0x4646464646464646, 0x4545454545454545, 0x4444444444444444, 0x4343434343434343, 0x4242424242424242,
   0x4141414141414141, 0x4040404040404040]

/-! ## The checks -/

/-- The defined entries of `lt_sel` for byte `b`, the first `lt_cnt[b]`, are those of its printed row. The entries
that R108 leaves to the implementation are not read. -/
def selRowListed (b : Nat) : Bool :=
  let n := (ltCnt b).toNat
  (List.range n).map (fun j => (ltSel (256 * j + b)).toNat) == rowEntries n (listingSel.getD b 0)

/-- "a unit test asserting every table against its closed-form definition" (R122): the table, which the model holds
by its closed form, is what the spec lists. -/
def tableListed : TableId → Bool
  | .allSet => table .allSet == [BitVec.allOnes 64]
  | .deBruijn64 =>
    table .deBruijn64 == [0x0218A392CD3D5DBF]
      && decide ((List.range 64).map (fun p => deBruijnIdx ((1 : Word) <<< p))).Nodup
  | .ltDeBruijnToIdx => (table .ltDeBruijnToIdx).map (·.toNat) == listingDeBruijn
  | .ltFib => (table .ltFib).map (·.toNat) == listingFib
  | .ltCnt => (table .ltCnt).map (·.toNat) == listingCnt
  | .ltHi => (table .ltHi).map (·.toNat) == listingHi
  | .ltLo => (table .ltLo).map (·.toNat) == listingLo
  | .loSet => table .loSet == listingLoSet
  | .loUnset => table .loUnset == listingLoUnset
  | .ltSel => listingSel.length == 256 && (List.range 256).all selRowListed
  | .psOverflow => table .psOverflow == listingPsOverflow

/-- "`lo_set[i] == ~lo_unset[i]` for every i in 0..64, `lo_set[0] == 0` and `lo_set[64] == all_set`" (R122). -/
def loSetsAgree : Bool :=
  (List.range 65).all (fun i => tblRead .loSet i == ~~~(tblRead .loUnset i))
    && tblRead .loSet 0 == 0 && tblRead .loSet 64 == tblRead .allSet 0

/-- All the self-checks of R122. Laws/Rom.lean decides that the ROM passes them. -/
def romSelfCheck : Bool := TableId.all.all tableListed && loSetsAgree

end Sys2Proof.Machine
end

