-- ==== Sys2Proof/Laws/Rom.lean ====
section
/-! SUPPORT. The ROM's self-checks (41_constant_tables.md R122): the spec's listings against the closed forms the
model holds, and the numeric relations between the tables. -/

namespace Sys2Proof.Machine

/-! ## The self-checks of R122 -/

/-- Every table is what the spec lists. -/
theorem tableListed_eq_true (t : TableId) : tableListed t = true := by
  cases t <;> decide +kernel

theorem loSetsAgree_eq_true : loSetsAgree = true := by
  decide +kernel

/-- The ROM passes every self-check. -/
theorem romSelfCheck_eq_true : romSelfCheck = true := by
  simp [romSelfCheck, tableListed_eq_true, loSetsAgree_eq_true]

/-! ## Relations -/

/-- The indexes of the 64 isolated bits are pairwise distinct, and `lt_deBruijn_to_idx` inverts them (R101,
R102). -/
theorem ltDeBruijnToIdx_inverse (p : Nat) (hp : p < 64) :
    (ltDeBruijnToIdx (deBruijnIdx ((1 : Word) <<< p))).toNat = p := by
  revert p
  decide +kernel

/-- `lo_set` and `lo_unset` are complements (R107). -/
theorem loSet_eq_not_loUnset (i : Nat) : loSet i = ~~~(loUnset i) := by
  simp [loUnset]

theorem loSet_zero : loSet 0 = 0 := rfl

theorem loSet_64 : loSet 64 = allSet := by decide

/-- Bit `p` of `lo_set[i]` is set exactly for `p < i`. -/
theorem loSet_getLsbD (i : Nat) {p : Nat} (hp : p < 64) : (loSet i).getLsbD p = decide (p < i) := by
  unfold loSet
  rw [BitVec.getLsbD_ofNat, Nat.testBit_two_pow_sub_one]
  simp [hp]

/-- Each neighbour pair of `lt_fib` is a pair of Fibonacci numbers (R103). -/
theorem fibPair_eq_fib (n : Nat) : fibPair n = (Nat.fib (n + 2), Nat.fib (n + 3)) := by
  induction n with
  | zero => rfl
  | succ n ih =>
    simp only [fibPair, ih]
    exact Prod.ext rfl (Nat.fib_add_two (n := n + 2)).symm

/-- `lt_sel` has 1024 defined entries (R108). -/
theorem ltSel_defined_entries : ((List.range 256).map (fun b => popcount (BitVec.ofNat 8 b))).sum = 1024 := by
  decide +kernel

/-- The ends of `ps_overflow`, and its example (R109, R120). -/
theorem psOverflow_values : psOverflow 0 = 0x8080808080808080 ∧ psOverflow 3 = 0x7D7D7D7D7D7D7D7D ∧
    psOverflow 64 = 0x4040404040404040 := by
  decide

/-! ## The tables as sequences (20_memory.md R44) -/

@[simp] theorem table_length (t : TableId) : (table t).length = tableLen t := by simp [table]

/-- Element `k` of the sequence is what a table read gives. -/
theorem table_getElem (t : TableId) {k : Nat} (h : k < (table t).length) : (table t)[k] = tblRead t k := by
  simp [table]

/-- A byte table's blob holds, byte for byte, the elements of its sequence. -/
theorem blob_eq_table {t : TableId} {bs : List Byte} (h : blob t = some bs) : bs.map zext = table t := by
  cases t <;> simp [blob] at h <;> subst h <;> simp [table, tblRead, tableLen, Function.comp_def]

end Sys2Proof.Machine
end

