-- ==== Sys2Proof/Laws/Step.lean ====
section
/-! SUPPORT. Steps and runs: what a step without reset does with an offered request, how runs compose, and what
loading a word leaves. -/

namespace Sys2Proof.Machine

theorem step_eq_cycle (s : State) : step s = cycle s := rfl

/-- A step that accepts the request `r`. -/
theorem step_accept {s : State} {r : Request} (hrst : s.rst = false) (ho : s.port.offered = some r)
    (hr : s.port.tick.ready = true) : step s = onNext State.finish (serve r s.accept) := by
  rw [step_eq_cycle, cycle, hrst, ho]
  simp only [hr]
  rfl

/-- A request whose code is in the opcode map is served by its instruction's meaning. -/
theorem serve_of_decode {r : Request} {i : Instr} (h : decodeRequest r = .ok i) (s : State) :
    serve r s = exec i s := by
  simp only [serve, h]

/-- A request whose code is not in the map is answered with ILLEGAL_OP. -/
theorem serve_of_illegal {r : Request} {e : Reject} (h : decodeRequest r = .error e) (s : State) :
    serve r s = raise .illegalOp s := by
  simp only [serve, h]

/-! ## Runs -/

/-- The host's runner, one step at a time, for any machine. -/
theorem coreRun_succ_of_next (M : Host.Core) {s s' : M.State} (h : M.step s = .next s') (n : Nat) :
    M.run (n + 1) s = M.run n s' := by
  simp only [Host.Core.run, h]

theorem coreRun_succ_of_refused (M : Host.Core) {s : M.State} {e : M.Refusal} (h : M.step s = .refused e)
    (n : Nat) : M.run (n + 1) s = .refused e := by
  simp only [Host.Core.run, h]

@[simp] theorem run_zero (s : State) : run 0 s = .next s := rfl

theorem run_succ_of_next {s s' : State} (h : step s = .next s') (n : Nat) : run (n + 1) s = run n s' :=
  coreRun_succ_of_next Sys2Proof.core h n

/-- A run that goes on after a run. -/
theorem run_add {m : Nat} : ∀ {s t : State}, run m s = .next t → ∀ n, run (m + n) s = run n t := by
  induction m with
  | zero => intro s t h n; cases h; rw [Nat.zero_add]
  | succ m ih =>
    intro s t h n
    cases hs : step s with
    | next u =>
      rw [show m + 1 + n = (m + n) + 1 by omega, run_succ_of_next hs]
      rw [run_succ_of_next hs] at h
      exact ih h n
    | fault e => cases e
    | refused e =>
      have this : run (m + 1) s = .refused e := coreRun_succ_of_refused Sys2Proof.core hs m
      rw [this] at h
      cases h

/-! ## Loading -/

@[simp] theorem withFetchWord_rst (s : State) (nbits w : Nat) : (s.withFetchWord nbits w).rst = false := by
  show (if s.rst then false :: s.rstPin else s.rstPin).headD false = false
  cases h : s.rst with
  | true => rfl
  | false => exact h

@[simp] theorem withFetchWord_offered (s : State) (nbits w : Nat) :
    (s.withFetchWord nbits w).port.offered = some (requestOfTableWord nbits w) :=
  resolveLine_ofRequest _ _

@[simp] theorem withFetchWord_ready (s : State) (nbits w : Nat) :
    (s.withFetchWord nbits w).port.tick.ready = true := rfl

end Sys2Proof.Machine
end

