-- ==== Sys2Proof/Tests/Slice0.lean ====
section
/-! SUPPORT. The model's own tests: vectors of spec/95_test_vectors.md (their numbers stand in the comments), the
checks of well-formedness on ill-formed terms, and for every statement with hypotheses a witness that meets them. -/

namespace Sys2Proof.Machine.Tests

/-- The packed response that serving a packed request adds to the queue of the machine after reset. -/
def respond (w : Nat) : Option (BitVec 67) :=
  match serve (requestOfTableWord 137 w) State.reset with
  | .next s => s.port.inflight.getLast?.map (fun f => f.rsp.pack)
  | _ => none

/-! ## Decoding: words of the spec, of every constructor -/

/-- V63. -/
theorem test_decode_cnt :
    decodeTableWord 137 0x1000000000000FFFF00000000000000B701 = some (.cnt 0xB7) := by decide

/-- V68. -/
theorem test_decode_cnt32 :
    decodeTableWord 137 0x00000000000000000123456789ABCDEF002 = some (.cnt32 0x123456789ABCDEF0) := by decide

/-- V74. -/
theorem test_decode_cnt8 :
    decodeTableWord 137 0x0000000000000000000000000000001B703 = some (.cnt8 0x1B7) := by decide

/-- V81. -/
theorem test_decode_hi :
    decodeTableWord 137 0x000000000000000000000010000000F0004 = some (.hi 0x10000000F00) := by decide

/-- V90. -/
theorem test_decode_lo :
    decodeTableWord 137 0x00000000000000000F00000000000000005 = some (.lo 0xF000000000000000) := by decide

/-- V100. -/
theorem test_decode_cnt11 :
    decodeTableWord 137 0x00000000000000000000000000000F3C606 = some (.cnt11 0xF3C6) := by decide

/-- V134. -/
theorem test_decode_cnt11c :
    decodeTableWord 137 0x10000000000000000800000000000000107 = some (.cnt11c 0x8000000000000001 true) := by decide

/-- V166. -/
theorem test_decode_cnt10c :
    decodeTableWord 137 0x10000000000000000123456789ABCDEF008 = some (.cnt10c 0x123456789ABCDEF0 true) := by decide

/-- V195. -/
theorem test_decode_cnt01c :
    decodeTableWord 137 0x00000000000000000123456789ABCDEF009 = some (.cnt01c 0x123456789ABCDEF0 false) := by decide

/-- V214. -/
theorem test_decode_map10 :
    decodeTableWord 137 0x10000000000000000000000000000F3C60A = some (.map10 0xF3C6 true) := by decide

/-- V243. -/
theorem test_decode_map01 :
    decodeTableWord 137 0x00000000000000000000000000000F3C60B = some (.map01 0xF3C6 false) := by decide

/-- V276. -/
theorem test_decode_sel :
    decodeTableWord 137 0x1000000000000000280000000000000010C = some (.sel 0x8000000000000001 2) := by decide

/-- V2. -/
theorem test_decode_trdAllset :
    decodeTableWord 137 0x00000000000000001000000000000000020 = some (.trdAllset 1) := by decide

/-- V4. -/
theorem test_decode_trdDebruijn :
    decodeTableWord 137 0x00000000000000000000000000000000021 = some (.trdDebruijn 0) := by decide

/-- V9. -/
theorem test_decode_trdDb2idx :
    decodeTableWord 137 0x0000000000000003F000000000000000022 = some (.trdDb2idx 63) := by decide

/-- V15. -/
theorem test_decode_trdFib :
    decodeTableWord 137 0x0000000000000005B000000000000000023 = some (.trdFib 91) := by decide

/-- V21. -/
theorem test_decode_trdCnt :
    decodeTableWord 137 0x00000000000000100000000000000000024 = some (.trdCnt 256) := by decide

/-- V24. -/
theorem test_decode_trdHi :
    decodeTableWord 137 0x0000000000000002C000000000000000025 = some (.trdHi 0x2C) := by decide

/-- V30. -/
theorem test_decode_trdLo :
    decodeTableWord 137 0x000000000000000FF000000000000000026 = some (.trdLo 255) := by decide

/-- V37. -/
theorem test_decode_trdLoset :
    decodeTableWord 137 0x00000000000000041000000000000000027 = some (.trdLoset 65) := by decide

/-- V39. -/
theorem test_decode_trdLounset :
    decodeTableWord 137 0x0000000000000000C000000000000000028 = some (.trdLounset 12) := by decide

/-- V45. -/
theorem test_decode_trdSel :
    decodeTableWord 137 0x0000000000000020B000000000000000029 = some (.trdSel 523) := by decide

/-- V53. -/
theorem test_decode_trdPsovf :
    decodeTableWord 137 0x0000000000000000300000000000000002A = some (.trdPsovf 3) := by decide

/-- V280, V282, V283, V285, V290: rejected by the code. -/
theorem test_decode_illegal :
    decodeTableWord 137 0 = none ∧ decodeTableWord 137 0x50D = none ∧ decodeTableWord 137 0x51F = none ∧
    decodeTableWord 137 0x2B = none ∧ decodeTableWord 137 0x1FFFFFFFFFFFFFFFFFFFFFFFFFFFFFFFFFF = none ∧
    decodeRequest ⟨0x0D, 5, 0, false⟩ = .error (.illegalOp 0x0D) := by decide

/-- The byte-serial link: 18 bytes, the least significant first, and no bit above bit 136 (20_memory.md R43). -/
theorem test_decode_bytes :
    decode ([0x08, 0xF0, 0xDE, 0xBC, 0x9A, 0x78, 0x56, 0x34, 0x12, 0, 0, 0, 0, 0, 0, 0, 0, 1] ++ [0xAA]) =
      .ok (.cnt10c 0x123456789ABCDEF0 true, [0xAA]) ∧
    decode [0x08, 0xF0] = .error .truncated ∧
    decode ([0x08, 0xF0, 0xDE, 0xBC, 0x9A, 0x78, 0x56, 0x34, 0x12, 0, 0, 0, 0, 0, 0, 0, 0, 2]) =
      .error .badPadding := by decide +kernel

/-- V109's response on a byte-serial link. -/
theorem test_response_bytes :
    (⟨63, true, .ok⟩ : Response).toBytes = [63, 0, 0, 0, 0, 0, 0, 0, 1] ∧
    (⟨0, false, .tableRange⟩ : Response).toBytes = [0, 0, 0, 0, 0, 0, 0, 0, 6] := by decide

/-! ## One served request each -/

/-- V57, V62. -/
theorem test_cnt :
    respond 0x00000000000000000FFFFFFFFFFFFFFFF01 = some 0x00000000000000040 ∧
    respond 0x00000000000000000123456789ABCDEF001 = some 0x00000000000000020 := by decide +kernel

/-- V65, V68. -/
theorem test_cnt32 :
    respond 0x00000000000000000FFFFFFFF0000000002 = some 0x00000000000000000 ∧
    respond 0x00000000000000000123456789ABCDEF002 = some 0x00000000000000013 := by decide +kernel

/-- V71, V74. -/
theorem test_cnt8 :
    respond 0x00000000000000000000000000000FF0003 = some 0x00000000000000000 ∧
    respond 0x0000000000000000000000000000001B703 = some 0x00000000000000006 := by decide +kernel

/-- V76, V81. -/
theorem test_hi :
    respond 0x00000000000000000000000000000000004 = some 0x00000000000000000 ∧
    respond 0x000000000000000000000010000000F0004 = some 0x00000000000000028 := by decide +kernel

/-- V84, V89. -/
theorem test_lo :
    respond 0x00000000000000000000000000000000005 = some 0x00000000000000000 ∧
    respond 0x000000000000000000000010000000F0005 = some 0x00000000000000008 := by decide +kernel

/-- V96, V106. -/
theorem test_cnt11 :
    respond 0x00000000000000000000000000000000606 = some 0x00000000000000000 ∧
    respond 0x00000000000000000123456789ABCDEF006 = some 0x00000000000000008 := by decide +kernel

/-- V110, V133. -/
theorem test_cnt11c :
    respond 0x10000000000000000FFFFFFFFFFFFFFFF07 = some 0x10000000000000040 ∧
    respond 0x00000000000000000800000000000000107 = some 0x10000000000000000 := by decide +kernel

/-- V157, V166. -/
theorem test_cnt10c :
    respond 0x00000000000000000AAAAAAAAAAAAAAAA08 = some 0x1000000000000001F ∧
    respond 0x10000000000000000123456789ABCDEF008 = some 0x00000000000000011 := by decide +kernel

/-- V186, V194. -/
theorem test_cnt01c :
    respond 0x10000000000000000555555555555555509 = some 0x0000000000000001F ∧
    respond 0x10000000000000000800000000000000109 = some 0x10000000000000001 := by decide +kernel

/-- V214, V225. -/
theorem test_map10 :
    respond 0x10000000000000000000000000000F3C60A = some 0x00000000000010409 ∧
    respond 0x00000000000000000123456789ABCDEF00A = some 0x02448A88125412100 := by decide +kernel

/-- V246, V255. -/
theorem test_map01 :
    respond 0x1000000000000000055555555555555550B = some 0x05555555555555554 ∧
    respond 0x00000000000000000123456789ABCDEF00B = some 0x0121452088A844210 := by decide +kernel

/-- V273, V279. -/
theorem test_sel :
    respond 0x00000000000000010123456789ABCDEF00C = some 0x00000000000000019 ∧
    respond 0x0800000000000000000000000000000FF0C = some 0x40000000000000000 := by decide +kernel

/-- V3, V2. -/
theorem test_trdAllset :
    respond 0x10000000000000000000000000000DEAD20 = some 0x0FFFFFFFFFFFFFFFF ∧
    respond 0x00000000000000001000000000000000020 = some 0x60000000000000000 := by decide +kernel

/-- V4, V5. -/
theorem test_trdDebruijn :
    respond 0x00000000000000000000000000000000021 = some 0x00218A392CD3D5DBF ∧
    respond 0x00000000000000001000000000000000021 = some 0x60000000000000000 := by decide +kernel

/-- V8, V10. -/
theorem test_trdDb2idx :
    respond 0x00000000000000020000000000000000022 = some 0x0000000000000003F ∧
    respond 0x00000000000000040000000000000000022 = some 0x60000000000000000 := by decide +kernel

/-- V15, V16. -/
theorem test_trdFib :
    respond 0x0000000000000005B000000000000000023 = some 0x0A94FAD42221F2702 ∧
    respond 0x0000000000000005C000000000000000023 = some 0x60000000000000000 := by decide +kernel

/-- V19, V21. -/
theorem test_trdCnt :
    respond 0x000000000000000B7000000000000000024 = some 0x00000000000000006 ∧
    respond 0x00000000000000100000000000000000024 = some 0x60000000000000000 := by decide +kernel

/-- V24, V26. -/
theorem test_trdHi :
    respond 0x0000000000000002C000000000000000025 = some 0x00000000000000005 ∧
    respond 0x00000000000000100000000000000000025 = some 0x60000000000000000 := by decide +kernel

/-- V28, V31. -/
theorem test_trdLo :
    respond 0x0000000000000002C000000000000000026 = some 0x00000000000000002 ∧
    respond 0x00000000000000100000000000000000026 = some 0x60000000000000000 := by decide +kernel

/-- V36, V37. -/
theorem test_trdLoset :
    respond 0x00000000000000040000000000000000027 = some 0x0FFFFFFFFFFFFFFFF ∧
    respond 0x00000000000000041000000000000000027 = some 0x60000000000000000 := by decide +kernel

/-- V39, V41. -/
theorem test_trdLounset :
    respond 0x0000000000000000C000000000000000028 = some 0x0FFFFFFFFFFFFF000 ∧
    respond 0x00000000000000041000000000000000028 = some 0x60000000000000000 := by decide +kernel

/-- V45, V51. -/
theorem test_trdSel :
    respond 0x0000000000000020B000000000000000029 = some 0x00000000000000003 ∧
    respond 0x00000000000000800000000000000000029 = some 0x60000000000000000 := by decide +kernel

/-- V53, V55. -/
theorem test_trdPsovf :
    respond 0x0000000000000000300000000000000002A = some 0x07D7D7D7D7D7D7D7D ∧
    respond 0x0000000000000004100000000000000002A = some 0x60000000000000000 := by decide +kernel

/-- V260 and V268: one bit more than there are; the response is the draw, which is used up. -/
theorem test_sel_draw :
    exec (.sel 0xB 4) State.reset =
      .next (State.reset.afterDraw.respond ⟨Config.selUndef 0 0, false, .ok⟩) ∧
    exec (.sel 0x8000000000000000 2) State.reset.afterDraw =
      .next (State.reset.afterDraw.afterDraw.respond ⟨Config.selUndef 0 1, false, .ok⟩) := ⟨rfl, rfl⟩

/-- V42 and V49: unused entries are read with status OK. -/
theorem test_trdSel_unused :
    exec (.trdSel 0) State.reset = .next (State.reset.respond ⟨zext (Config.ltSelUnused 0 0), false, .ok⟩) ∧
    exec (.trdSel 1919) State.reset =
      .next (State.reset.respond ⟨zext (Config.ltSelUnused 7 0x7F), false, .ok⟩) := ⟨rfl, rfl⟩

/-- V282, V290: an illegal code is answered, whatever the operands. -/
theorem test_illegal :
    respond 0x0000000000000000000000000000000050D = some 0x20000000000000000 ∧
    respond 0x1FFFFFFFFFFFFFFFFFFFFFFFFFFFFFFFFFF = some 0x20000000000000000 := by decide +kernel

/-! ## Clock cycles -/

/-- Two ports, the first ready with a program, the second in its first cycle after reset. -/
def twoPorts (ms : List HostMove) (q : List InFlight) (rst : List Bool) : State :=
  { rstPin := rst, served := [],
    port := { Port.reset with ready := true, initLeft := 0, moves := ms, inflight := q },
    waiting := [Port.reset] }

/-- The state a step answers. -/
def after (s : State) : State :=
  match step s with
  | .next t => t
  | _ => s

/-- A response due next cycle is presented, the next request is not disturbed by it (R66). -/
theorem test_presentation :
    (after (twoPorts [] [⟨⟨6, false, .ok⟩, 1⟩, ⟨⟨7, true, .ok⟩, 2⟩] [])).served =
      [{ (twoPorts [] [⟨⟨7, true, .ok⟩, 1⟩] []).port with
         out := some ⟨6, false, .ok⟩, answers := [some ⟨6, false, .ok⟩] }] := rfl

/-- A cycle with `rst = 1` discards what is in flight (70_reset_and_hazards.md R230). -/
theorem test_reset_cycle :
    (after (twoPorts [] [⟨⟨6, false, .ok⟩, 1⟩] [true])).served = [{ Port.reset with answers := [none] }] := rfl

/-- Line 2 of P1: the carry of line 1 is resolved from the host's record (30_encoding.md R76). -/
theorem test_resolve :
    resolveLine [some ⟨4, true, .ok⟩] ⟨0x08, .lit 0x5555555555555555, .lit 0, .coutOf 1⟩
      = some ⟨0x08, 0x5555555555555555, 0, true⟩ ∧
    resolveLine [some ⟨8, false, .ok⟩] ⟨0x27, .lit 0, .yOf 1, .lit 0⟩ = some ⟨0x27, 0, 8, false⟩ ∧
    resolveLine [] ⟨0x27, .lit 0, .yOf 1, .lit 0⟩ = none := by decide

/-- An idle move passes with the cycle. -/
theorem test_idle : (after (twoPorts [.idle, .offer (Line.ofRequest ⟨1, 0, 0, false⟩)] [] [])).served.map (·.moves)
    = [[.offer (Line.ofRequest ⟨1, 0, 0, false⟩)]] := rfl

/-! ## Well-formedness: a term that each check refuses -/

theorem test_wf_ref_self : Line.wf 2 ⟨0x08, .lit 5, .lit 0, .coutOf 2⟩ = false := by decide
theorem test_wf_ref_zero : Line.wf 2 ⟨0x27, .lit 0, .yOf 0, .lit 0⟩ = false := by decide
theorem test_wf_ref_a : Line.wf 3 ⟨0x01, .yOf 4, .lit 0, .lit 0⟩ = false := by decide
theorem test_wf_ref_b_cout : Line.wf 3 ⟨0x0C, .lit 0, .coutOf 3, .lit 0⟩ = false := by decide
theorem test_wf_carry : Line.wf 1 ⟨0x08, .lit 5, .lit 0, .lit 2⟩ = false := by decide
theorem test_wf_program : programWf 1 [⟨0x01, .lit 5, .lit 0, .lit 0⟩, ⟨0x08, .lit 5, .lit 0, .coutOf 3⟩] = false := by
  decide
theorem test_wf_program_ok : programWf 1 [⟨0x08, .lit 5, .lit 0, .lit 1⟩, ⟨0x08, .lit 5, .lit 0, .coutOf 1⟩] = true := by
  decide
theorem test_wf_cnt10_alone : AsmLine.wf 1 ⟨.cnt10, [.num 5]⟩ = false := by decide
theorem test_wf_cnt01_alone : AsmLine.wf 1 ⟨.cnt01, [.num 5]⟩ = false := by decide
theorem test_wf_arity : AsmLine.wf 1 ⟨.op .cnt, [.num 5, .num 0]⟩ = false := by decide
theorem test_wf_none : AsmLine.wf 1 ⟨.op .hi, []⟩ = false := by decide
theorem test_wf_number : AsmLine.wf 1 ⟨.op .cnt, [.num (2 ^ 64)]⟩ = false := by decide
theorem test_wf_asm_carry : AsmLine.wf 1 ⟨.op .map10, [.num 5, .num 2]⟩ = false := by decide
theorem test_wf_table_name : AsmLine.wf 1 ⟨.trd, [.num 3, .num 4]⟩ = false := by decide
theorem test_wf_table_slot : AsmLine.wf 1 ⟨.op .sel, [.table .ltFib, .num 4]⟩ = false := by decide
theorem test_wf_asm_ref : AsmLine.wf 2 ⟨.op (.trd .loSet), [.yOf 2]⟩ = false := by decide

/-! ## Assembler texts of spec/95_test_vectors.md -/

/-- Line `n` as written, as a host line. -/
def asm (n : Nat) (text : String) : Option Line := (readLine text.toList).bind (assemble n)

/-- P1 line 2, P2 line 6, V257, P3 line 7. -/
theorem test_asm_lines :
    asm 2 "CNT10C 0x5555555555555555, @1.cout" = some ⟨0x08, .lit 0x5555555555555555, .lit 0, .coutOf 1⟩ ∧
    asm 6 "MAP01 0x800000000000F3C6" = some ⟨0x0B, .lit 0x800000000000F3C6, .lit 0, .lit 1⟩ ∧
    asm 1 "SEL 0b1011, 1" = some ⟨0x0C, .lit 0xB, .lit 1, .lit 0⟩ ∧
    asm 7 "TRD.LOUNSET @5.y" = some ⟨0x28, .lit 0, .yOf 5, .lit 0⟩ := by decide +kernel

/-- The pseudo-instructions of R75 as written. -/
theorem test_asm_pseudo :
    asm 1 "TRD lt_deBruijn_to_idx, 32" = asm 1 "TRD.DB2IDX 32" ∧
    asm 1 "TRD.DB2IDX 32" = some ⟨0x22, .lit 0, .lit 32, .lit 0⟩ ∧
    asm 1 "CNT11 0x6, 1" = asm 1 "CNT11C 0x6, 1" ∧ asm 1 "CNT01 5, 0" = asm 1 "CNT01C 5, 0" ∧
    asm 1 "CNT10 5" = none ∧ asm 1 "MAP10 5" = asm 1 "MAP10 5, 0" ∧ asm 1 "FOO 5" = none := by decide +kernel

/-- The next step runs a loaded word as the first instruction after reset. -/
theorem test_loaded_step :
    step (State.reset.withFetchWord 8 0x01) =
      onNext State.finish (exec (.cnt 0) (State.reset.withFetchWord 8 0x01).accept) := rfl

/-! ## Witnesses: inputs that meet the hypotheses of each statement -/

theorem witness_DecodeEncodeRoundTrip : (Instr.cnt11c 0x8000000000000001 true).wf = true := rfl

/-- The last bits of the packed forms. -/
theorem witness_packed_bits : 136 < 137 ∧ 66 < 67 := by decide

/-- The ends of the three ranges of illegal codes. -/
theorem witness_IllegalCommandAnswered : ∀ n ∈ [0, 0x0D, 0x1F, 0x2B, 0xFF],
    ((BitVec.ofNat 8 n).toNat = 0 ∨ (0x0D ≤ (BitVec.ofNat 8 n).toNat ∧ (BitVec.ofNat 8 n).toNat ≤ 0x1F) ∨
      0x2B ≤ (BitVec.ofNat 8 n).toNat) ∧
    decodeRequest ⟨BitVec.ofNat 8 n, 5, 3, true⟩ = .error (.illegalOp (BitVec.ofNat 8 n)) := by decide

theorem witness_CommandGroups :
    Op.ofCode 0x0C = some .sel ∧ Op.ofCode 0x2A = some (.trd .psOverflow) ∧
    (0x1F : BitVec 8).extractLsb' 4 4 ≠ 0 ∧ (0x1F : BitVec 8).extractLsb' 4 4 ≠ 2 := by decide

/-- A number and a reference in each place. -/
theorem witness_PseudoInstructionsExpand :
    AsmOperand.fits 2 .a (.num (2 ^ 64 - 1)) = true ∧ AsmOperand.fits 2 .cin (.num 1) = true ∧
    AsmOperand.fits 2 .b (.num 0) = true ∧ AsmOperand.fits 2 .a (.yOf 1) = true ∧
    AsmOperand.fits 2 .cin (.coutOf 1) = true ∧ AsmOperand.fits 2 .b (.coutOf 1) = true := by decide

/-- Both clauses: the zero word, and words with their highest and lowest bits at the ends. -/
theorem witness_Hi_Lo : (0 : Word) = 0 ∧ (1 : Word) ≠ 0 ∧ (0x8000000000000000 : Word) ≠ 0 := by decide

theorem witness_LoAtMostHi : (0x8000000000000000 : Word) ≠ 0 ∧ popcount (0x8000000000000000 : Word) = 1 ∧
    (3 : Word) ≠ 0 ∧ popcount (3 : Word) ≠ 1 := by decide

/-- Both clauses at the ends of the index: 1 and 64, with enough set bits and with one too few. -/
theorem witness_SelSelectsOrDraws :
    (1 ≤ (64 : Word).toNat ∧ (64 : Word).toNat ≤ 64 ∧ 1 ≤ (1 : Word).toNat ∧ (1 : Word).toNat ≤ 64) ∧
    (64 : Word).toNat ≤ countPositions 64 (fun p => (0xFFFFFFFFFFFFFFFF : Word).getLsbD p) ∧
    countPositions 64 (fun p => (0xFFFFFFFFFFFFFFFE : Word).getLsbD p) < (64 : Word).toNat ∧
    (1 : Word).toNat ≤ countPositions 64 (fun p => (0x8000000000000000 : Word).getLsbD p) ∧
    countPositions 64 (fun p => (0 : Word).getLsbD p) < (1 : Word).toNat := by decide +kernel

/-- Each clause: the indexes out of range at their ends, an index in range that runs, negative host indexes. -/
theorem witness_SelRangeChecked :
    (∀ i : Word, i ∈ [(0 : Word), 65, 0xFFFFFFFFFFFFFFFF] → i.toNat = 0 ∨ 65 ≤ i.toNat) ∧
    (∀ i : Word, i ∈ [(1 : Word), 64] → ¬ (i.toNat = 0 ∨ 65 ≤ i.toNat)) ∧
    (∃ t, exec (.sel 1 1) State.reset = .next t) ∧
    (-(2 ^ 63) ≤ (-1 : Int) ∧ (-1 : Int) < 0) ∧ (-(2 ^ 63) ≤ -(2 ^ 63 : Int) ∧ -(2 ^ 63 : Int) < 0) :=
  ⟨by simp, by simp, ⟨_, rfl⟩, by decide, by decide⟩

theorem witness_SelEnumeratesSetBits :
    (1 ≤ 1 ∧ 1 < 2 ∧ 2 ≤ popcount (3 : Word)) ∧ (3 : Word).getLsbD 1 = true ∧ (3 : Word) ≠ 0 := by decide

theorem witness_SelByBytesAgrees : 1 ≤ 1 ∧ 1 ≤ popcount (1 : Word) ∧ 64 ≤ popcount (0xFFFFFFFFFFFFFFFF : Word) := by
  decide

/-- The first index out of range of every table, and the last index of all. -/
theorem witness_TableReadOutOfRange :
    ∀ e ∈ [(TableId.allSet, 1), (.deBruijn64, 1), (.ltDeBruijnToIdx, 64), (.ltFib, 92), (.ltCnt, 256),
      (.ltHi, 256), (.ltLo, 256), (.loSet, 65), (.loUnset, 65), (.ltSel, 2048), (.psOverflow, 65)],
    tableLen e.1 = e.2 ∧ e.2 ≤ (BitVec.ofNat 64 e.2).toNat ∧ e.2 ≤ (0xFFFFFFFFFFFFFFFF : Word).toNat := by decide

/-- The last index in range and the first out of range of each table read, and the byte 0. -/
theorem witness_Trd_ranges :
    (1 : Word) ≠ 0 ∧ (91 : Word).toNat < 92 ∧ 92 ≤ (92 : Word).toNat ∧ (255 : Word).toNat < 256 ∧
    (0 : Word).toNat < 256 ∧ 256 ≤ (256 : Word).toNat ∧ (64 : Word).toNat < 65 ∧ 65 ≤ (65 : Word).toNat ∧
    (63 : Word).toNat < 64 ∧ 2048 ≤ (2048 : Word).toNat := by decide

/-- Both clauses: the last entry, which is defined, and the first, which is not. -/
theorem witness_TrdSelReads :
    (7 < 8 ∧ 255 < 256 ∧ (2047 : Word) = BitVec.ofNat 64 (256 * 7 + 255) ∧
      7 + 1 ≤ countPositions 8 (fun p => (255 : Nat).testBit p)) ∧
    (0 < 8 ∧ 0 < 256 ∧ (0 : Word) = BitVec.ofNat 64 (256 * 0 + 0) ∧
      countPositions 8 (fun p => (0 : Nat).testBit p) < 0 + 1) := by decide +kernel

/-- A word whose bytes are all at the bound, read against the first and the last threshold. -/
theorem witness_TrdPsovfReads : (0 : Word).toNat < 65 ∧ (64 : Word).toNat < 65 ∧
    ∀ j, j < 8 → (byteOf 0x4040404040404040 j).toNat ≤ 64 := by decide

theorem witness_ServedRequestAnswered :
    callerUndefined ⟨0x0C, 0xB, 3, false⟩ = false ∧ callerUndefined ⟨0x0C, 0xB, 65, false⟩ = false ∧
    callerUndefined ⟨0x0C, 0xB, 4, false⟩ = true := by decide

/-- One pair of unlike requests for each way a row of R69 reads the fields. -/
theorem witness_UnreadFieldsIgnored :
    agreeOnRead ⟨0x0D, 1, 2, false⟩ ⟨0x0D, 3, 4, true⟩ ∧
    agreeOnRead ⟨0x01, 0xB7, 2, false⟩ ⟨0x01, 0xB7, 4, true⟩ ∧
    agreeOnRead ⟨0x02, 0x1FFFFFFFF, 2, false⟩ ⟨0x02, 0xFFFFFFFF, 4, true⟩ ∧
    agreeOnRead ⟨0x03, 0x1FF, 2, false⟩ ⟨0x03, 0xFF, 4, true⟩ ∧
    agreeOnRead ⟨0x07, 5, 2, true⟩ ⟨0x07, 5, 4, true⟩ ∧
    agreeOnRead ⟨0x0C, 5, 2, true⟩ ⟨0x0C, 5, 2, false⟩ ∧
    agreeOnRead ⟨0x2A, 5, 2, true⟩ ⟨0x2A, 6, 2, false⟩ :=
  ⟨⟨rfl, trivial⟩, ⟨rfl, rfl⟩, ⟨rfl, rfl⟩, ⟨rfl, rfl⟩, ⟨rfl, rfl, rfl⟩, ⟨rfl, rfl, rfl⟩, ⟨rfl, rfl⟩⟩

/-- Each clause: a draw, a carry-out of 1, both range errors, an OK. -/
theorem witness_ExecFrame :
    (∃ t, exec (.sel 0xB 4) State.reset = .next t ∧ t.port.draws = 1) ∧
    (∃ t, exec (.cnt11c 0x8000000000000000 false) State.reset = .next t ∧
      t.port.inflight = [⟨⟨0, true, .ok⟩, Config.latency⟩]) ∧
    (∃ t, exec (.sel 0xB 65) State.reset = .next t ∧ t.port.inflight = [⟨⟨0, false, .selRange⟩, Config.latency⟩]) ∧
    (∃ t, exec (.trdFib 92) State.reset = .next t ∧
      t.port.inflight = [⟨⟨0, false, .tableRange⟩, Config.latency⟩]) :=
  ⟨⟨_, rfl, rfl⟩, ⟨_, rfl, rfl⟩, ⟨_, rfl, rfl⟩, ⟨_, rfl, rfl⟩⟩

/-- The machine after reset, with CNT 0xB7 to be accepted at once. -/
def loaded : State := State.reset.load ⟨0x01, 0xB7, 0, false⟩

theorem witness_StepRunsDecodedInstruction :
    loaded.rst = false ∧ loaded.port.offered = some ⟨0x01, 0xB7, 0, false⟩ ∧ loaded.port.tick.ready = true ∧
    decodeRequest ⟨0x01, 0xB7, 0, false⟩ = .ok (.cnt 0xB7) := ⟨rfl, rfl, rfl, rfl⟩

theorem witness_LoadedWordRunsNext :
    8 ≤ 137 ∧ decodeTableWord 8 0x01 = some (.cnt 0) ∧
    137 ≤ 137 ∧ decodeTableWord 137 0x1000000000000FFFF00000000000000B701 = some (.cnt 0xB7) := by decide

/-- One port on its own, `n` cycles before it is ready, with a program. -/
def onePort (n : Nat) (ms : List HostMove) : State :=
  { rstPin := [], served := [], port := { Port.reset with initLeft := n, moves := ms }, waiting := [] }

theorem witness_RequestHeldWhileNotReady :
    (onePort 1 [.offer (Line.ofRequest ⟨0x01, 0xB7, 0, false⟩)]).rst = false ∧
    (onePort 1 [.offer (Line.ofRequest ⟨0x01, 0xB7, 0, false⟩)]).port.offered = some ⟨0x01, 0xB7, 0, false⟩ ∧
    (onePort 1 []).port.ready = false ∧ (onePort 1 []).port.initLeft ≠ 0 ∧ (onePort 1 []).port.inflight = [] :=
  ⟨rfl, rfl, rfl, by decide, rfl⟩

/-- A line whose carry refers to the first response, none having arrived; and one such reference in each other
place. -/
theorem witness_HostWaitsForReference :
    (onePort 0 [.offer ⟨0x08, .lit 5, .lit 0, .coutOf 1⟩]).rst = false ∧
    (onePort 0 [.offer ⟨0x08, .lit 5, .lit 0, .coutOf 1⟩]).port.answers.length < 1 ∧
    (⟨0x08, .yOf 1, .lit 0, .lit 0⟩ : Line).a = .yOf 1 ∧ (⟨0x08, .coutOf 1, .lit 0, .lit 0⟩ : Line).a = .coutOf 1 ∧
    (⟨0x0C, .lit 5, .yOf 1, .lit 0⟩ : Line).b = .yOf 1 ∧ (⟨0x0C, .lit 5, .coutOf 1, .lit 0⟩ : Line).b = .coutOf 1 ∧
    (⟨0x08, .lit 5, .lit 0, .yOf 1⟩ : Line).cin = .yOf 1 :=
  ⟨rfl, by decide, rfl, rfl, rfl, rfl, rfl⟩

theorem witness_ClockCycleOfAllPorts : State.reset.atCycleStart ∧ (twoPorts [] [] []).atCycleStart := ⟨rfl, rfl⟩

/-- A machine of the real number of ports, whose port 0 has just had a response taken. -/
def answered : State :=
  { State.reset with port := { Port.reset with ready := true, initLeft := 0, out := some ⟨6, false, .ok⟩,
                                               answers := [some ⟨6, false, .ok⟩] } }

/-- A machine with an arbitrary port 0 that meets the invariant, beside ports after reset. -/
theorem inv_of_port {p : Port} (h : p.Inv) : ({ State.reset with port := p } : State).Inv := by
  refine ⟨?_, by simp [State.ports, State.reset, Config.nPorts]⟩
  intro q hq
  have : q = p ∨ q = Port.reset := by
    simp [State.ports, State.reset] at hq
    tauto
  rcases this with rfl | rfl
  · exact h
  · constructor <;> simp [Port.reset, Port.history]

theorem answered_inv : answered.Inv :=
  inv_of_port (by constructor <;> simp [Port.reset, Port.history, lawful])

theorem loaded_inv : loaded.Inv := by
  have h : loaded = { State.reset with port := State.reset.port.load ⟨0x01, 0xB7, 0, false⟩ } := rfl
  rw [h]
  exact inv_of_port (by constructor <;> simp [State.reset, Port.load, Port.reset, Port.history])

theorem witness_StepKeepsInv : answered.Inv ∧ ∃ t, step answered = .next t := ⟨answered_inv, _, rfl⟩

theorem witness_ResetEmptiesEveryPort :
    (twoPorts [] [⟨⟨6, false, .ok⟩, 1⟩] [true]).atCycleStart ∧ (twoPorts [] [⟨⟨6, false, .ok⟩, 1⟩] [true]).rst = true ∧
    (twoPorts [] [⟨⟨6, false, .ok⟩, 1⟩] [true]).ports[1]? = some Port.reset := ⟨rfl, rfl, rfl⟩

theorem witness_ReadyRisesAfterInitCycles :
    (onePort Config.initCycles []).atCycleStart ∧
    (∀ b ∈ (onePort Config.initCycles []).rstPin.take 1, b = false) ∧
    (∀ p ∈ (onePort Config.initCycles []).ports, p.ready = false ∧ p.initLeft = Config.initCycles) ∧
    ∃ t, runCycles 1 (onePort Config.initCycles []) = .next t :=
  ⟨rfl, by simp [onePort], by simp [onePort, State.ports, Port.reset], _, rfl⟩

theorem witness_ResponseAfterLatency :
    loaded.Inv ∧ loaded.atCycleStart ∧ (∀ b ∈ loaded.rstPin.take (Config.latency + 1), b = false) ∧
    loaded.ports[0]? = some loaded.port ∧ loaded.port.offered = some ⟨0x01, 0xB7, 0, false⟩ ∧
    loaded.port.tick.ready = true ∧ 0 ≤ Config.latency ∧ runCycles 0 loaded = .next loaded :=
  ⟨loaded_inv, rfl, by simp [loaded, State.load, State.reset, State.rst], rfl, rfl, rfl, Nat.zero_le _,
    by simp [runCycles]⟩

/-- Both ends of a presentation: a cycle in which a response is due, and one in which none is. -/
theorem witness_ResponseAfterLatency_one_cycle :
    ({ onePort 0 [] with port := answered.port } : State).atCycleStart ∧
    ({ onePort 0 [] with port := answered.port } : State).rst = false ∧
    answered.port.out = some ⟨6, false, .ok⟩ ∧
    (after { onePort 0 [] with port := answered.port }).port.out = none ∧
    (twoPorts [] [⟨⟨6, false, .ok⟩, 1⟩] []).atCycleStart ∧ (twoPorts [] [⟨⟨6, false, .ok⟩, 1⟩] []).rst = false :=
  ⟨rfl, rfl, rfl, rfl, rfl, rfl⟩

/-- A cycle with `rst = 1` and one without after it, and the state after reset. -/
theorem witness_ReadyRisesAfterReset :
    ({ onePort 0 [] with rstPin := [true] } : State).atCycleStart ∧
    ({ onePort 0 [] with rstPin := [true] } : State).rst = true ∧
    (∀ b ∈ ({ onePort 0 [] with rstPin := [true] } : State).rstPin.tail.take 1, b = false) ∧
    (∃ t, runCycles (1 + 1) { onePort 0 [] with rstPin := [true] } = .next t) ∧
    runCycles 0 State.reset = .next State.reset :=
  ⟨rfl, rfl, by simp, ⟨_, rfl⟩, by simp [runCycles]⟩

theorem witness_HistoryOnlyGrows :
    (∀ b ∈ (onePort 0 []).rstPin, b = false) ∧ (∃ t, run 1 (onePort 0 []) = .next t) ∧
    (onePort 0 []).ports[0]? = some (onePort 0 []).port := ⟨by simp [onePort], ⟨_, rfl⟩, rfl⟩

/-- Two machines that agree on port 0 and not on port 1. -/
theorem witness_OtherPortsDoNotMatter :
    (twoPorts [] [] []).ports[0]? = ({ twoPorts [] [] [] with waiting := [answered.port] } : State).ports[0]? ∧
    (twoPorts [] [] []).waiting.length = ({ twoPorts [] [] [] with waiting := [answered.port] } : State).waiting.length ∧
    (∃ t, run 1 (twoPorts [] [] []) = .next t) ∧
    ∃ t, run 1 { twoPorts [] [] [] with waiting := [answered.port] } = .next t :=
  ⟨rfl, rfl, ⟨_, rfl⟩, _, rfl⟩

end Sys2Proof.Machine.Tests
end

section
/-! Operation codes (30_encoding.md R67, R68, R72): which codes the map holds, and what the decoder and the unit
make of a code inside and outside it. -/

namespace Sys2Proof.Machine

@[simp] theorem ofCode_code (o : Op) : Op.ofCode o.code = some o := by
  cases o with
  | trd t => cases t <;> rfl
  | _ => rfl

theorem code_of_ofCode {c : BitVec 8} {o : Op} (h : Op.ofCode c = some o) : o.code = c := by
  simpa using List.find?_some h

/-- The codes of R68: 1 to 12, and the eleven table reads from 0x20. -/
theorem codes_toNat : Op.all.map (fun o => o.code.toNat) = List.range' 1 12 ++ List.range' 0x20 11 := rfl

theorem ofCode_eq_none_iff_not_mem {c : BitVec 8} :
    Op.ofCode c = none ↔ c.toNat ∉ Op.all.map (fun o => o.code.toNat) := by
  simp [Op.ofCode, BitVec.toNat_inj]

/-- The codes outside the map (R72). -/
theorem ofCode_eq_none_iff {c : BitVec 8} :
    Op.ofCode c = none ↔ c.toNat = 0 ∨ (0x0D ≤ c.toNat ∧ c.toNat ≤ 0x1F) ∨ 0x2B ≤ c.toNat := by
  rw [ofCode_eq_none_iff_not_mem, codes_toNat, List.mem_append, List.mem_range'_1, List.mem_range'_1]
  omega

theorem decodeRequest_of_op {r : Request} {o : Op} (h : Op.ofCode r.cmd = some o) :
    decodeRequest r = .ok (o.instr r) := by
  simp [decodeRequest, h]

theorem decodeRequest_of_no_op {r : Request} (h : Op.ofCode r.cmd = none) :
    decodeRequest r = .error (.illegalOp r.cmd) := by
  simp [decodeRequest, h]

theorem decodeRequest_eq_error_iff {r : Request} :
    decodeRequest r = .error (.illegalOp r.cmd) ↔ Op.ofCode r.cmd = none := by
  cases h : Op.ofCode r.cmd with
  | none => simp [decodeRequest_of_no_op h]
  | some o => simp [decodeRequest_of_op h]

theorem serve_of_op {r : Request} {o : Op} (h : Op.ofCode r.cmd = some o) (s : State) :
    serve r s = exec (o.instr r) s := by
  simp [serve, decodeRequest_of_op h]

theorem serve_of_no_op {r : Request} (h : Op.ofCode r.cmd = none) (s : State) :
    serve r s = .next (s.withResponse (errorResponse .illegalOp)) := by
  simp [serve, decodeRequest_of_no_op h, raise_eq]

/-- Settles O4: the codes outside the map are those of `ofCode_eq_none_iff`, and the decoder and the unit reject
exactly the codes that `Op.ofCode` does not find. -/
theorem illegalCommandAnswered : Obligations.IllegalCommandAnswered := by
  intro cmd a b cin s
  rw [← ofCode_eq_none_iff]
  exact ⟨decodeRequest_eq_error_iff (r := ⟨cmd, a, b, cin⟩), fun h => serve_of_no_op h s⟩

/-! ## Groups (R67) -/

theorem group_code_trd (t : TableId) : (Op.trd t).code.extractLsb' 4 4 = 2 :=
  BitVec.extractLsb'_append_eq_left

theorem function_code_trd (t : TableId) : (Op.trd t).code.extractLsb' 0 4 = t.id :=
  BitVec.extractLsb'_append_eq_right

theorem group_code (o : Op) :
    (o.code.extractLsb' 4 4 = 0 ∧ ∀ t, o ≠ .trd t) ∨
    (o.code.extractLsb' 4 4 = 2 ∧ ∃ t, o = .trd t ∧ t.id = o.code.extractLsb' 0 4) := by
  cases o with
  | trd t => exact .inr ⟨group_code_trd t, t, rfl, (function_code_trd t).symm⟩
  | _ => exact .inl ⟨rfl, nofun⟩

/-- Settles O5: a code in the map is the code of its operation, whose group `group_code` says. -/
theorem commandGroups : Obligations.CommandGroups := by
  intro cmd
  have hgroup : ∀ o, Op.ofCode cmd = some o →
      (cmd.extractLsb' 4 4 = 0 ∧ ∀ t, o ≠ .trd t) ∨
      (cmd.extractLsb' 4 4 = 2 ∧ ∃ t, o = .trd t ∧ t.id = cmd.extractLsb' 0 4) := by
    intro o ho
    simpa only [code_of_ofCode ho] using group_code o
  refine ⟨hgroup, fun h0 h2 => ?_⟩
  cases ho : Op.ofCode cmd with
  | none => rfl
  | some o => exact (hgroup o ho).elim (fun h => absurd h.1 h0) (fun h => absurd h.1 h2)

end Sys2Proof.Machine
end

section
/-! What an operation reads of a request (30_encoding.md R65, R69). -/

namespace Sys2Proof.Machine

theorem execCnt32_congr {a a' : Word} (h : lowHalf a = lowHalf a') (s : State) :
    execCnt32 a s = execCnt32 a' s := by
  simp only [execCnt32, h]

theorem execCnt8_congr {a a' : Word} (h : byteOf a 0 = byteOf a' 0) (s : State) :
    execCnt8 a s = execCnt8 a' s := by
  simp only [execCnt8, h]

/-- CNT32 and CNT8 hold the whole of `a` in their instruction and read its low bits; every other operation drops
what it does not read when it is decoded. -/
theorem exec_instr_of_agreeOnRead {r r' : Request} {o : Op} (ho : Op.ofCode r.cmd = some o)
    (h : agreeOnRead r r') (s : State) : exec (o.instr r) s = exec (o.instr r') s := by
  obtain ⟨-, hread⟩ := h
  rw [ho] at hread
  cases o with
  | cnt32 => exact execCnt32_congr hread s
  | cnt8 => exact execCnt8_congr hread s
  | _ => simp_all only [Op.instr]

/-- Settles O42, by the two kinds of command: an illegal one has the same answer whatever its fields hold, and an
operation reads only the fields of its row. -/
theorem unreadFieldsIgnored : Obligations.UnreadFieldsIgnored := by
  intro r r' h s
  have hcmd : r.cmd = r'.cmd := h.1
  cases ho : Op.ofCode r.cmd with
  | none => rw [serve_of_no_op ho, serve_of_no_op (hcmd ▸ ho)]
  | some o => rw [serve_of_op ho, serve_of_op (hcmd ▸ ho), exec_instr_of_agreeOnRead ho h]

end Sys2Proof.Machine
end

section
/-! The packed and the byte-serial form of a request (30_encoding.md R61, 20_memory.md R43), bit by bit. -/

namespace Sys2Proof.Machine

theorem toBytes_getElem? {w n : Nat} (p : BitVec w) {j : Nat} (h : j < n) :
    (toBytes n p)[j]? = some (p.extractLsb' (8 * j) 8) := by
  simp [toBytes, h]

/-- Bit `k` of a packed form is sent in bit `k % 8` of byte `k / 8`. -/
theorem toBytes_bit {w n : Nat} (p : BitVec w) {k : Nat} (h : k < 8 * n) :
    ∃ b, (toBytes n p)[k / 8]? = some b ∧ b.getLsbD (k % 8) = p.getLsbD k := by
  refine ⟨_, toBytes_getElem? p (by omega), ?_⟩
  rw [BitVec.getLsbD_extractLsb', Nat.div_add_mod]
  simp [Nat.mod_lt]

theorem request_pack_cmd (r : Request) : r.pack.extractLsb' 0 8 = r.cmd :=
  BitVec.extractLsb'_append_eq_right

theorem request_pack_a (r : Request) : r.pack.extractLsb' 8 64 = r.a := by
  unfold Request.pack
  rw [BitVec.extractLsb'_append_eq_of_le (by decide)]
  exact BitVec.extractLsb'_append_eq_right

theorem request_pack_b (r : Request) : r.pack.extractLsb' 72 64 = r.b := by
  unfold Request.pack
  rw [BitVec.extractLsb'_append_eq_of_le (by decide), BitVec.extractLsb'_append_eq_of_le (by decide)]
  exact BitVec.extractLsb'_append_eq_right

theorem request_pack_cin (r : Request) : r.pack.getLsbD 136 = r.cin := by
  simp only [Request.pack, BitVec.getLsbD_append]
  simp

@[simp] theorem request_unpack_pack (r : Request) : Request.unpack r.pack = r := by
  simp only [Request.unpack, request_pack_cmd, request_pack_a, request_pack_b, request_pack_cin]

/-- A bit is the one-bit slice at its place. -/
theorem ofBool_getLsbD_eq_extractLsb' {w : Nat} (p : BitVec w) (n : Nat) :
    BitVec.ofBool (p.getLsbD n) = p.extractLsb' n 1 := by
  apply BitVec.eq_of_getLsbD_eq
  intro i hi
  obtain rfl : i = 0 := by omega
  simp

/-- The four slices are adjacent and cover all 137 bits. -/
@[simp] theorem request_pack_unpack (p : BitVec 137) : (Request.unpack p).pack = p := by
  simp only [Request.pack, Request.unpack, ofBool_getLsbD_eq_extractLsb']
  rw [BitVec.extractLsb'_append_extractLsb'_eq_extractLsb' (show 136 = 72 + 64 from rfl),
    BitVec.extractLsb'_append_extractLsb'_eq_extractLsb' (show 72 = 8 + 64 from rfl),
    BitVec.extractLsb'_append_extractLsb'_eq_extractLsb' (show 8 = 0 + 8 from rfl)]
  exact BitVec.extractLsb'_eq_self

/-- Settles O2: the fields of the packed form one by one, both round trips, and the byte order of `toBytes`. -/
theorem packedRequestLayout : Obligations.PackedRequestLayout :=
  ⟨fun r => ⟨request_pack_cmd r, request_pack_a r, request_pack_b r, request_pack_cin r, request_unpack_pack r,
    fun _ hn => toBytes_bit r.pack (by omega)⟩, request_pack_unpack⟩

end Sys2Proof.Machine
end

section
/-! The assembler's lines (30_encoding.md R74, R75). The forms of a name differ in length, so the number of written
operands picks the form, and each line either assembles in that form or not at all. -/

namespace Sys2Proof.Machine

theorem length_eq_of_fitsForm {n : Nat} {form : List Slot} {os : List AsmOperand} (h : fitsForm n form os = true) :
    form.length = os.length := by
  induction form generalizing os with
  | nil => cases os with
    | nil => rfl
    | cons o os => cases h
  | cons r rs ih => cases os with
    | nil => cases h
    | cons o os =>
      rw [fitsForm, Bool.and_eq_true] at h
      exact congrArg (· + 1) (ih h.2)

/-- The forms of the line's name that have as many roles as the line has operands. -/
def formsOfLength (l : AsmLine) : List (List Slot) :=
  l.name.forms.filter (fun form => form.length == l.operands.length)

/-- The host line of the operation `o` with the operands `os` written in the roles of `form`. -/
def lineOf (o : Op) (form : List Slot) (os : List AsmOperand) : Line :=
  { cmd := o.code, a := pick .a (.lit 0) (form.zip os), b := pick .b (.lit 0) (form.zip os),
    cin := pick .cin (defaultCarry o) (form.zip os) }

/-- That line, if the operands fit the roles. -/
def assembleAs (n : Nat) (o : Op) (form : List Slot) (os : List AsmOperand) : Option Line :=
  if fitsForm n form os then some (lineOf o form os) else none

theorem find?_fitsForm (n : Nat) (l : AsmLine) :
    l.name.forms.find? (fitsForm n · l.operands) = (formsOfLength l).find? (fitsForm n · l.operands) := by
  rw [formsOfLength, List.find?_filter]
  congr 1
  funext form
  cases h : fitsForm n form l.operands with
  | false => simp
  | true => simp [length_eq_of_fitsForm h]

theorem assemble_of_form {n : Nat} {l : AsmLine} {o : Op} {form : List Slot} (ho : asmOp l = some o)
    (hform : formsOfLength l = [form]) : assemble n l = assembleAs n o form l.operands := by
  rw [assemble, assembleAs, find?_fitsForm, hform, List.find?_singleton, ho]
  cases fitsForm n form l.operands <;> rfl

theorem assemble_of_no_form {n : Nat} {l : AsmLine} (hform : formsOfLength l = []) : assemble n l = none := by
  rw [assemble, find?_fitsForm, hform, List.find?_nil]

/-- Two lines of one operation assemble alike if they do so in their forms. -/
theorem assemble_congr {n : Nat} {l l' : AsmLine} {o : Op} {form form' : List Slot} (ho : asmOp l = some o)
    (ho' : asmOp l' = some o) (hform : formsOfLength l = [form]) (hform' : formsOfLength l' = [form'])
    (h : assembleAs n o form l.operands = assembleAs n o form' l'.operands) : assemble n l = assemble n l' := by
  rw [assemble_of_form ho hform, assemble_of_form ho' hform', h]

theorem assemble_of_fits {n : Nat} {l : AsmLine} (o : Op) (form : List Slot) (ho : asmOp l = some o)
    (hform : formsOfLength l = [form]) (h : fitsForm n form l.operands = true) :
    assemble n l = some (lineOf o form l.operands) :=
  (assemble_of_form ho hform).trans (if_pos h)

theorem fitsForm_one {n : Nat} {r : Slot} {x : AsmOperand} (h : x.fits n r = true) : fitsForm n [r] [x] = true := by
  simp [fitsForm, h]

theorem fitsForm_two {n : Nat} {r r' : Slot} {x x' : AsmOperand} (h : x.fits n r = true)
    (h' : x'.fits n r' = true) : fitsForm n [r, r'] [x, x'] = true := by
  simp [fitsForm, h, h']

/-- The second half of O7: a line with a fitting operand in each role of its form. -/
theorem fitting_lines_assemble {n : Nat} {a c k : AsmOperand} (t : TableId) (ha : a.fits n .a = true)
    (hc : c.fits n .cin = true) (hk : k.fits n .b = true) :
    assemble n ⟨.op .map10, [a, c]⟩ = some ⟨0x0A, AsmOperand.operand a, .lit 0, AsmOperand.operand c⟩ ∧
    assemble n ⟨.op .map01, [a, c]⟩ = some ⟨0x0B, AsmOperand.operand a, .lit 0, AsmOperand.operand c⟩ ∧
    assemble n ⟨.op .cnt11c, [a, c]⟩ = some ⟨0x07, AsmOperand.operand a, .lit 0, AsmOperand.operand c⟩ ∧
    assemble n ⟨.op .cnt10c, [a, c]⟩ = some ⟨0x08, AsmOperand.operand a, .lit 0, AsmOperand.operand c⟩ ∧
    assemble n ⟨.op .cnt01c, [a, c]⟩ = some ⟨0x09, AsmOperand.operand a, .lit 0, AsmOperand.operand c⟩ ∧
    assemble n ⟨.op .sel, [a, k]⟩ = some ⟨0x0C, AsmOperand.operand a, AsmOperand.operand k, .lit 0⟩ ∧
    assemble n ⟨.op (.trd t), [k]⟩ = some ⟨0x2#4 ++ t.id, .lit 0, AsmOperand.operand k, .lit 0⟩ := by
  have hac : fitsForm n [.a, .cin] [a, c] = true := fitsForm_two ha hc
  have hab : fitsForm n [.a, .b] [a, k] = true := fitsForm_two ha hk
  exact ⟨assemble_of_fits .map10 [.a, .cin] rfl rfl hac, assemble_of_fits .map01 [.a, .cin] rfl rfl hac,
    assemble_of_fits .cnt11c [.a, .cin] rfl rfl hac, assemble_of_fits .cnt10c [.a, .cin] rfl rfl hac,
    assemble_of_fits .cnt01c [.a, .cin] rfl rfl hac, assemble_of_fits .sel [.a, .b] rfl rfl hab,
    assemble_of_fits (.trd t) [.b] rfl rfl (fitsForm_one hk)⟩

/-- A carry that is not written is the default of the operation, which fits its role (R75). -/
theorem assemble_map10_default (n : Nat) (a : AsmOperand) :
    assemble n ⟨.op .map10, [a]⟩ = assemble n ⟨.op .map10, [a, .num 0]⟩ :=
  assemble_congr (form := [.a]) (form' := [.a, .cin]) rfl rfl rfl rfl rfl

theorem assemble_map01_default (n : Nat) (a : AsmOperand) :
    assemble n ⟨.op .map01, [a]⟩ = assemble n ⟨.op .map01, [a, .num 1]⟩ :=
  assemble_congr (form := [.a]) (form' := [.a, .cin]) rfl rfl rfl rfl rfl

/-- `CNT11` is written with a carry only in the form of `CNT11C`. -/
theorem assemble_cnt11_carry (n : Nat) (a c : AsmOperand) :
    assemble n ⟨.op .cnt11, [a, c]⟩ = assemble n ⟨.op .cnt11c, [a, c]⟩ :=
  assemble_congr (form := [.a, .cin]) (form' := [.a, .cin]) rfl rfl rfl rfl rfl

/-- A table's name fits its role, and gives no field of the request but the code. -/
theorem assemble_trd_name (n : Nat) (t : TableId) (k : AsmOperand) :
    assemble n ⟨.trd, [.table t, k]⟩ = assemble n ⟨.op (.trd t), [k]⟩ :=
  assemble_congr (form := [.table, .b]) (form' := [.b]) rfl rfl rfl rfl rfl

/-- Settles O7, expansion by expansion; `CNT10` and `CNT01` are other names of CNT10C and CNT01C with the same one
form, and have no form of one operand. -/
theorem pseudoInstructionsExpand : Obligations.PseudoInstructionsExpand :=
  ⟨fun n a c k t => ⟨assemble_map10_default n a, assemble_map01_default n a, assemble_cnt11_carry n a c, rfl, rfl,
      assemble_trd_name n t k, assemble_of_no_form rfl, assemble_of_no_form rfl⟩,
    fun _ _ _ _ t ha hc hk => fitting_lines_assemble t ha hc hk⟩

end Sys2Proof.Machine
end

section
/-! Table reads (41_constant_tables.md): what every table shares, and the elements of the byte-indexed tables as
facts about the bits of their index. -/

namespace Sys2Proof.Machine

/-! ## What the tables share (R121) -/

theorem decodeRequest_trd (t : TableId) (a b : Word) (cin : Bool) :
    decodeRequest ⟨(Op.trd t).code, a, b, cin⟩ = .ok (Instr.ofTable b t) :=
  decodeRequest_of_op (r := ⟨(Op.trd t).code, a, b, cin⟩) (ofCode_code (.trd t))

theorem exec_ofTable_of_lt (t : TableId) {k : Word} (h : k.toNat < tableLen t) (s : State) :
    exec (Instr.ofTable k t) s = .next (s.withResponse ⟨tblRead t k.toNat, false, .ok⟩) :=
  (exec_ofTable t k s).trans (tableRead_of_lt h s)

theorem exec_ofTable_of_ge (t : TableId) {k : Word} (h : tableLen t ≤ k.toNat) (s : State) :
    exec (Instr.ofTable k t) s = .next (s.withResponse ⟨0, false, .tableRange⟩) :=
  (exec_ofTable t k s).trans (tableRead_of_ge h s)

/-! ## `all_set`, `lo_set` and `lt_fib` -/

theorem allSet_getLsbD {p : Nat} (hp : p < 64) : allSet.getLsbD p = true := by
  rw [← loSet_64, loSet_getLsbD 64 hp, decide_eq_true hp]

/-- Settles O33: index 0 is the only one below the length 1. -/
theorem trdAllsetReads : Obligations.TrdAllsetReads := by
  intro a b cin s
  refine ⟨decodeRequest_trd .allSet a b cin, fun hb => exec_ofTable_of_ge .allSet ?_ s, allSet,
    exec_ofTable_of_lt .allSet (by decide) s, fun _ => allSet_getLsbD⟩
  exact Nat.one_le_iff_ne_zero.mpr fun h0 => hb (BitVec.eq_of_toNat_eq h0)

/-- Settles O38, by the bits of `lo_set`; `lo_unset` is its complement by definition. -/
theorem trdLosetLounsetRead : Obligations.TrdLosetLounsetRead := by
  intro a b cin s
  refine ⟨decodeRequest_trd .loSet a b cin, decodeRequest_trd .loUnset a b cin, fun hb => ?_,
    fun hb => ⟨exec_ofTable_of_ge .loSet hb s, exec_ofTable_of_ge .loUnset hb s⟩⟩
  refine ⟨loSet b.toNat, exec_ofTable_of_lt .loSet hb s, exec_ofTable_of_lt .loUnset hb s, fun p hp => ?_⟩
  rw [loSet_getLsbD _ hp, decide_eq_true_iff]

/-- The last entry of `lt_fib` is the last Fibonacci number that fits a word (R103). -/
theorem fib_word_bound : Nat.fib (91 + 2) < 2 ^ 64 ∧ 2 ^ 64 ≤ Nat.fib (92 + 2) := by norm_num

theorem ltFib_toNat {n : Nat} (h : n < 92) : (ltFib n).toNat = Nat.fib (n + 2) := by
  have hfit : Nat.fib (n + 2) < 2 ^ 64 := (Nat.fib_mono (show n + 2 ≤ 91 + 2 by omega)).trans_lt fib_word_bound.1
  rw [ltFib, fibPair_eq_fib, BitVec.toNat_ofNat, Nat.mod_eq_of_lt hfit]

/-- Settles O35: no Fibonacci number in the table is cut off. -/
theorem trdFibReads : Obligations.TrdFibReads := by
  intro a b cin s
  exact ⟨decodeRequest_trd .ltFib a b cin, fun hb => ⟨_, exec_ofTable_of_lt .ltFib hb s, ltFib_toNat hb⟩,
    fun hb => exec_ofTable_of_ge .ltFib hb s, fib_word_bound⟩

/-! ## The byte-indexed tables

An index below 256 and the byte it stands for have the same bits, at every position. -/

/-- A count or a position of a byte, zero-extended from the byte that a table holds. -/
theorem zext_ofNat_byte {n : Nat} (h : n < 256) : zext (BitVec.ofNat 8 n) = BitVec.ofNat 64 n := by
  apply BitVec.eq_of_toNat_eq
  simp only [zext, BitVec.toNat_setWidth, BitVec.toNat_ofNat]
  omega

theorem zext_ofNat_byte_toNat {n : Nat} (h : n < 256) : (zext (BitVec.ofNat 8 n)).toNat = n := by
  rw [zext_ofNat_byte h, BitVec.toNat_ofNat]
  omega

theorem ofNat_byte_getLsbD {c : Nat} (hc : c < 256) (p : Nat) : (BitVec.ofNat 8 c).getLsbD p = c.testBit p := by
  rw [← BitVec.testBit_toNat, BitVec.toNat_ofNat, Nat.mod_eq_of_lt hc]

theorem ofNat_toNat_byte_getLsbD {b : Word} (hb : b.toNat < 256) (p : Nat) :
    (BitVec.ofNat 8 b.toNat).getLsbD p = b.getLsbD p := by
  rw [ofNat_byte_getLsbD hb, BitVec.testBit_toNat]

theorem rank_ofNat_byte {c : Nat} (hc : c < 256) (n : Nat) :
    rank (BitVec.ofNat 8 c) n = countPositions n (fun p => c.testBit p) := by
  rw [rank_eq_countPositions]
  exact countPositions_congr fun p _ => ofNat_byte_getLsbD hc p

theorem ofNat_toNat_byte_ne_zero {b : Word} (hb : b.toNat < 256) (h : b ≠ 0) : BitVec.ofNat 8 b.toNat ≠ 0 := by
  obtain ⟨p, -, hp⟩ := exists_set_bit h
  intro h0
  rw [← ofNat_toNat_byte_getLsbD hb, h0] at hp
  simp at hp

theorem tblRead_ltCnt_toNat (n : Nat) : (tblRead .ltCnt n).toNat = popcount (BitVec.ofNat 8 n) :=
  zext_ofNat_byte_toNat ((popcount_le _).trans_lt (by decide))

/-- Settles O36: the entry is the popcount of the byte, which counts the bits of the index. -/
theorem trdCntReads : Obligations.TrdCntReads := by
  intro a b cin s
  refine ⟨decodeRequest_trd .ltCnt a b cin, fun hb => ⟨_, exec_ofTable_of_lt .ltCnt hb s, ?_⟩,
    fun hb => exec_ofTable_of_ge .ltCnt hb s⟩
  rw [tblRead_ltCnt_toNat, popcount_eq_countPositions]
  exact countPositions_congr fun p _ => ofNat_toNat_byte_getLsbD hb p

/-! ### `lt_hi` and `lt_lo` -/

theorem tblRead_ltHi_zero {b : Word} (h : b = 0) : tblRead .ltHi b.toNat = 0 := by rw [h]; rfl

theorem tblRead_ltLo_zero {b : Word} (h : b = 0) : tblRead .ltLo b.toNat = 0 := by rw [h]; rfl

theorem tblRead_ltHi_spec {b : Word} (hb : b.toNat < 256) (h : b ≠ 0) :
    (tblRead .ltHi b.toNat).toNat < 8 ∧ b.getLsbD (tblRead .ltHi b.toNat).toNat = true ∧
      ∀ q, (tblRead .ltHi b.toNat).toNat < q → b.getLsbD q = false := by
  have hspec := hiPos_spec (ofNat_toNat_byte_ne_zero hb h)
  have hy : (tblRead .ltHi b.toNat).toNat = hiPos (BitVec.ofNat 8 b.toNat) :=
    zext_ofNat_byte_toNat (hspec.1.trans (by decide))
  simpa only [hy, ofNat_toNat_byte_getLsbD hb] using hspec

theorem tblRead_ltLo_spec {b : Word} (hb : b.toNat < 256) (h : b ≠ 0) :
    (tblRead .ltLo b.toNat).toNat < 8 ∧ b.getLsbD (tblRead .ltLo b.toNat).toNat = true ∧
      ∀ q, q < (tblRead .ltLo b.toNat).toNat → b.getLsbD q = false := by
  have hspec := loPos_spec (ofNat_toNat_byte_ne_zero hb h)
  have hy : (tblRead .ltLo b.toNat).toNat = loPos (BitVec.ofNat 8 b.toNat) :=
    zext_ofNat_byte_toNat (hspec.1.trans (by decide))
  simpa only [hy, ofNat_toNat_byte_getLsbD hb] using hspec

/-- Settles O37, by the entry of the byte 0 and the position laws of the others. -/
theorem trdHiLoReads : Obligations.TrdHiLoReads := by
  intro a b cin s
  refine ⟨decodeRequest_trd .ltHi a b cin, decodeRequest_trd .ltLo a b cin, fun hb => ⟨?hi, ?lo⟩,
    fun hb => ⟨exec_ofTable_of_ge .ltHi hb s, exec_ofTable_of_ge .ltLo hb s⟩⟩
  case hi =>
    exact ⟨_, exec_ofTable_of_lt .ltHi hb s, tblRead_ltHi_zero, tblRead_ltHi_spec hb⟩
  case lo =>
    exact ⟨_, exec_ofTable_of_lt .ltLo hb s, tblRead_ltLo_zero, tblRead_ltLo_spec hb⟩

/-! ### `lt_sel` (R108) -/

theorem ltSel_of_le_popcount {j c : Nat} (hc : c < 256) (h : j + 1 ≤ popcount (BitVec.ofNat 8 c)) :
    ltSel (256 * j + c) = BitVec.ofNat 8 (selPos (BitVec.ofNat 8 c) (j + 1)) := by
  simp [ltSel, Nat.mul_add_div, Nat.div_eq_of_lt hc, Nat.mod_eq_of_lt hc, h]

theorem ltSel_of_popcount_lt {j c : Nat} (hc : c < 256) (h : popcount (BitVec.ofNat 8 c) < j + 1) :
    ltSel (256 * j + c) = Config.ltSelUnused j c := by
  simp [ltSel, Nat.mul_add_div, Nat.div_eq_of_lt hc, Nat.mod_eq_of_lt hc, h.not_ge]

/-- The read at entry `256*j + c`, an index of the table. -/
theorem exec_trdSel_entry {j c : Nat} (hj : j < 8) (hc : c < 256) (s : State) :
    exec (.trdSel (BitVec.ofNat 64 (256 * j + c))) s =
      .next (s.withResponse ⟨zext (ltSel (256 * j + c)), false, .ok⟩) := by
  have hidx : (BitVec.ofNat 64 (256 * j + c)).toNat = 256 * j + c := by
    rw [BitVec.toNat_ofNat]
    omega
  have hlt : 256 * j + c < tableLen .ltSel := show 256 * j + c < 2048 by omega
  rw [← hidx] at hlt
  exact (exec_ofTable_of_lt .ltSel hlt s).trans (by rw [hidx, tblRead])

/-- A defined entry is the position of the (j+1)-th set bit. -/
theorem exec_trdSel_defined {j c : Nat} (hj : j < 8) (hc : c < 256)
    (h : j + 1 ≤ countPositions 8 (fun p => c.testBit p)) (s : State) :
    ∃ p, p < 8 ∧
      exec (.trdSel (BitVec.ofNat 64 (256 * j + c))) s = .next (s.withResponse ⟨BitVec.ofNat 64 p, false, .ok⟩) ∧
      c.testBit p = true ∧ countPositions (p + 1) (fun q => c.testBit q) = j + 1 := by
  rw [← rank_ofNat_byte hc] at h
  obtain ⟨hp, hbit, hrank⟩ := selPos_spec (BitVec.ofNat 8 c) (Nat.le_add_left 1 j) h
  rw [ofNat_byte_getLsbD hc] at hbit
  rw [rank_ofNat_byte hc] at hrank
  refine ⟨_, hp, ?_, hbit, hrank⟩
  rw [exec_trdSel_entry hj hc, ltSel_of_le_popcount hc h, zext_ofNat_byte (hp.trans (by decide))]

/-- Any other entry is the implementation's byte. -/
theorem exec_trdSel_unused {j c : Nat} (hj : j < 8) (hc : c < 256)
    (h : countPositions 8 (fun p => c.testBit p) < j + 1) (s : State) :
    exec (.trdSel (BitVec.ofNat 64 (256 * j + c))) s =
      .next (s.withResponse ⟨(Config.ltSelUnused j c).setWidth 64, false, .ok⟩) := by
  rw [← rank_ofNat_byte hc] at h
  rw [exec_trdSel_entry hj hc, ltSel_of_popcount_lt hc h, zext]

/-- Settles O39, by the two kinds of entry. -/
theorem trdSelReads : Obligations.TrdSelReads := by
  intro a b cin s
  refine ⟨decodeRequest_trd .ltSel a b cin, ?_, fun hb => exec_ofTable_of_ge .ltSel hb s⟩
  rintro j c hj hc rfl
  exact ⟨fun h => exec_trdSel_defined hj hc h s, fun h => exec_trdSel_unused hj hc h s⟩

end Sys2Proof.Machine
end

section
/-! Word popcount (42_word_popcount.md): a count of at most 64 positions fits the result word, and a part of a word
from bit 0 up has the bits of the word. -/

namespace Sys2Proof.Machine

/-- A request with the code of an operation decodes to that operation's instruction, with the fields it holds. -/
theorem decodeRequest_code (o : Op) (a b : Word) (cin : Bool) :
    decodeRequest ⟨o.code, a, b, cin⟩ = .ok (o.instr ⟨o.code, a, b, cin⟩) :=
  decodeRequest_of_op (r := ⟨o.code, a, b, cin⟩) (ofCode_code o)

theorem zextNat_popcount_toNat {w : Nat} (hw : w ≤ 64) (x : BitVec w) :
    (zextNat (popcount x)).toNat = popcount x :=
  zextNat_toNat ((popcount_le x).trans hw)

theorem popcount_lowHalf (a : Word) : popcount (lowHalf a) = countPositions 32 (fun p => a.getLsbD p) := by
  rw [popcount_eq_countPositions]
  exact countPositions_congr fun p hp => by rw [lowHalf_getLsbD, decide_eq_true hp, Bool.true_and]

theorem popcount_byteOf (a : Word) (j : Nat) :
    popcount (byteOf a j) = countPositions 8 (fun p => a.getLsbD (8 * j + p)) := by
  rw [popcount_eq_countPositions]
  exact countPositions_congr fun p hp => by rw [byteOf_getLsbD, decide_eq_true hp, Bool.true_and]

/-- The low byte as an index of the byte tables. -/
theorem byteOf_zero_eq_ofNat (a : Word) : byteOf a 0 = BitVec.ofNat 8 (a.toNat % 256) := by
  apply BitVec.eq_of_toNat_eq
  simp [byteOf]

/-- CNT8's result is the `lt_cnt` entry of the low byte (R143). -/
theorem zextNat_popcount_lowByte (a : Word) :
    zextNat (popcount (byteOf a 0)) = tblRead .ltCnt (a.toNat % 256) := by
  apply BitVec.eq_of_toNat_eq
  rw [zextNat_popcount_toNat (by decide), tblRead_ltCnt_toNat, byteOf_zero_eq_ofNat]

/-- Settles O8: `popcount` counts the set positions. -/
theorem cntCountsSetBits : Obligations.CntCountsSetBits := by
  intro a b cin s
  refine ⟨decodeRequest_code .cnt a b cin, zextNat (popcount a), complete_eq _ noCarry s, ?_⟩
  rw [zextNat_popcount_toNat le_rfl, popcount_eq_countPositions]

/-- Settles O9: the low half has the bits of `a` below 32. -/
theorem cnt32CountsLowHalf : Obligations.Cnt32CountsLowHalf := by
  intro a b cin s
  refine ⟨decodeRequest_code .cnt32 a b cin, zextNat (popcount (lowHalf a)), complete_eq _ noCarry s, ?_⟩
  rw [zextNat_popcount_toNat (by decide), popcount_lowHalf]

/-- Settles O10: the low byte has the bits of `a` below 8, and `lt_cnt` holds its popcount. -/
theorem cnt8CountsLowByte : Obligations.Cnt8CountsLowByte := by
  intro a b cin s
  refine ⟨decodeRequest_code .cnt8 a b cin, zextNat (popcount (byteOf a 0)), complete_eq _ noCarry s, ?_,
    zextNat_popcount_lowByte a⟩
  rw [zextNat_popcount_toNat (by decide), popcount_byteOf]
  simp only [Nat.mul_zero, Nat.zero_add]

end Sys2Proof.Machine
end

section
/-! Bit locate (43_bit_locate.md): a position in a word fits the result word, so the response is the position that
`hiPos_spec` and `loPos_spec` describe. -/

namespace Sys2Proof.Machine

/-- The zero word answers 0 (R150). -/
theorem zextNat_hiPos_zero {a : Word} (h : a = 0) : zextNat (hiPos a) = 0 := by rw [h, hiPos_zero]; rfl

theorem zextNat_loPos_zero {a : Word} (h : a = 0) : zextNat (loPos a) = 0 := by rw [h, loPos_zero]; rfl

theorem zextNat_hiPos_toNat {a : Word} (h : a ≠ 0) : (zextNat (hiPos a)).toNat = hiPos a :=
  zextNat_toNat (hiPos_spec h).1.le

theorem zextNat_loPos_toNat {a : Word} (h : a ≠ 0) : (zextNat (loPos a)).toNat = loPos a :=
  zextNat_toNat (loPos_spec h).1.le

/-- Settles O13: `hiPos` is the highest set position of a nonzero word. -/
theorem hiFindsHighestBit : Obligations.HiFindsHighestBit := by
  intro a b cin s
  refine ⟨decodeRequest_code .hi a b cin, zextNat (hiPos a), complete_eq _ noCarry s, zextNat_hiPos_zero, fun h => ?_⟩
  rw [zextNat_hiPos_toNat h]
  exact hiPos_spec h

/-- Settles O14: `loPos` is the lowest set position of a nonzero word. -/
theorem loFindsLowestBit : Obligations.LoFindsLowestBit := by
  intro a b cin s
  refine ⟨decodeRequest_code .lo a b cin, zextNat (loPos a), complete_eq _ noCarry s, zextNat_loPos_zero, fun h => ?_⟩
  rw [zextNat_loPos_toNat h]
  exact loPos_spec h

end Sys2Proof.Machine
end

section
/-! Pair counter (44_pair_counter.md): a word's 64 positions are taken as 32 pairs `(2k, 2k+1)`. A count over them
splits into the even and the odd positions, and is at most 32 where no two neighbours are both counted. -/

namespace Sys2Proof.Machine

/-! ## Counting by pairs -/

@[simp] theorem countPositions_false (n : Nat) : countPositions n (fun _ => false) = 0 := by
  simp [countPositions]

theorem countPositions_two_mul (n : Nat) (f : Nat → Bool) :
    countPositions (2 * n) f = countPositions n (fun k => f (2 * k)) + countPositions n (fun k => f (2 * k + 1)) := by
  induction n with
  | zero => rfl
  | succ n ih =>
    simp only [Nat.mul_succ, countPositions_succ, ih]
    omega

theorem countPositions_two_mul_le (n : Nat) {f : Nat → Bool} (h : ∀ i, f i = true → f (i + 1) = false) :
    countPositions (2 * n) f ≤ n := by
  induction n with
  | zero => simp
  | succ n ih =>
    have hpair : (f (2 * n)).toNat + (f (2 * n + 1)).toNat ≤ 1 := by
      cases hf : f (2 * n) with
      | false => simpa using Bool.toNat_le (f (2 * n + 1))
      | true => simp [h _ hf]
    simp only [Nat.mul_succ, countPositions_succ]
    omega

/-! ## Aligned pairs (R161) -/

/-- The mask that keeps the low position of every pair. -/
theorem pairMask_getLsbD {p : Nat} (hp : p < 64) :
    (0x5555555555555555 : Word).getLsbD p = decide (p % 2 = 0) := by
  revert p
  decide

theorem alignedPairs_getLsbD (a : Word) {p : Nat} (hp : p < 64) :
    (alignedPairs a).getLsbD p = (a.getLsbD p && a.getLsbD (p + 1) && decide (p % 2 = 0)) := by
  rw [alignedPairs, BitVec.getLsbD_and, BitVec.getLsbD_and, BitVec.getLsbD_ushiftRight, pairMask_getLsbD hp,
    Nat.add_comm 1 p]

theorem popcount_alignedPairs (a : Word) :
    popcount (alignedPairs a) = countPositions 32 (fun k => a.getLsbD (2 * k) && a.getLsbD (2 * k + 1)) := by
  have heven : ∀ k, k < 32 →
      (alignedPairs a).getLsbD (2 * k) = (a.getLsbD (2 * k) && a.getLsbD (2 * k + 1)) := fun k hk => by
    simp [alignedPairs_getLsbD a (show 2 * k < 64 by omega)]
  have hodd : ∀ k, k < 32 → (alignedPairs a).getLsbD (2 * k + 1) = false := fun k hk => by
    simp [alignedPairs_getLsbD a (show 2 * k + 1 < 64 by omega), Nat.add_mod]
  rw [popcount_eq_countPositions, countPositions_two_mul 32, countPositions_congr heven, countPositions_congr hodd,
    countPositions_false, Nat.add_zero]

/-- Settles O18: the marks of the pairs stand on the even positions. -/
theorem cnt11CountsAlignedPairs : Obligations.Cnt11CountsAlignedPairs := by
  intro a b cin s
  refine ⟨decodeRequest_code .cnt11 a b cin, zextNat (popcount (alignedPairs a)), complete_eq _ noCarry s, ?_⟩
  rw [zextNat_popcount_toNat le_rfl, popcount_alignedPairs]

/-! ## Windows (R162 to R164) -/

theorem bitBefore_succ (a : Word) (c : Bool) (i : Nat) : bitBefore a c (i + 1) = a.getLsbD i := by
  simp [bitBefore]

theorem popcount_m11 (a : Word) (c : Bool) :
    popcount (m11 a c) = countPositions 64 (fun i => bitBefore a c i && a.getLsbD i) := by
  rw [popcount_eq_countPositions]
  exact countPositions_congr fun _ => m11_getLsbD a c

theorem popcount_m10 (a : Word) (c : Bool) :
    popcount (m10 a c) = countPositions 64 (fun i => bitBefore a c i && !a.getLsbD i) := by
  rw [popcount_eq_countPositions]
  exact countPositions_congr fun _ => m10_getLsbD a c

theorem popcount_m01 (a : Word) (c : Bool) :
    popcount (m01 a c) = countPositions 64 (fun i => !bitBefore a c i && a.getLsbD i) := by
  rw [popcount_eq_countPositions]
  exact countPositions_congr fun _ => m01_getLsbD a c

/-- A window showing "10" ends in 0, and the window after it begins with that bit. -/
theorem popcount_m10_le (a : Word) (c : Bool) : popcount (m10 a c) ≤ 32 := by
  rw [popcount_m10]
  refine countPositions_two_mul_le 32 fun i hi => ?_
  have hclear : a.getLsbD i = false := by simpa using (Bool.and_eq_true_iff.mp hi).2
  rw [bitBefore_succ, hclear, Bool.false_and]

/-- A window showing "01" ends in 1, and the window after it begins with that bit. -/
theorem popcount_m01_le (a : Word) (c : Bool) : popcount (m01 a c) ≤ 32 := by
  rw [popcount_m01]
  refine countPositions_two_mul_le 32 fun i hi => ?_
  have hset : a.getLsbD i = true := (Bool.and_eq_true_iff.mp hi).2
  rw [bitBefore_succ, hset, Bool.not_true, Bool.false_and]

/-- Settles O19: `m11` marks the windows. -/
theorem cnt11cCountsWindows : Obligations.Cnt11cCountsWindows := by
  intro a b c s
  refine ⟨decodeRequest_code .cnt11c a b c, zextNat (popcount (m11 a c)), complete_eq _ (carryOut a) s, ?_⟩
  rw [zextNat_popcount_toNat le_rfl, popcount_m11]

/-- Settles O20: `m10` marks the windows, no two of them neighbours. -/
theorem cnt10cCountsWindows : Obligations.Cnt10cCountsWindows := by
  intro a b c s
  refine ⟨decodeRequest_code .cnt10c a b c, zextNat (popcount (m10 a c)), complete_eq _ (carryOut a) s, ?_⟩
  rw [zextNat_popcount_toNat le_rfl]
  exact ⟨popcount_m10 a c, popcount_m10_le a c⟩

/-- Settles O21: `m01` marks the windows, no two of them neighbours. -/
theorem cnt01cCountsWindows : Obligations.Cnt01cCountsWindows := by
  intro a b c s
  refine ⟨decodeRequest_code .cnt01c a b c, zextNat (popcount (m01 a c)), complete_eq _ (carryOut a) s, ?_⟩
  rw [zextNat_popcount_toNat le_rfl]
  exact ⟨popcount_m01 a c, popcount_m01_le a c⟩

end Sys2Proof.Machine
end

section
/-! Pair mapper (45_pair_mapper.md): the response is the mask of the windows itself, and the form without a carry
assembles with the default of its own operation. -/

namespace Sys2Proof.Machine

/-- The one-operand form of MAP10 reads the carry 0 (R75). -/
theorem assemble_map10_one {n : Nat} {x : AsmOperand} (hx : x.fits n .a = true) :
    assemble n ⟨.op .map10, [x]⟩ = some ⟨0x0A, AsmOperand.operand x, .lit 0, .lit 0⟩ :=
  assemble_of_fits .map10 [.a] rfl rfl (fitsForm_one hx)

/-- The one-operand form of MAP01 reads the carry 1 (R75). -/
theorem assemble_map01_one {n : Nat} {x : AsmOperand} (hx : x.fits n .a = true) :
    assemble n ⟨.op .map01, [x]⟩ = some ⟨0x0B, AsmOperand.operand x, .lit 0, .lit 1⟩ :=
  assemble_of_fits .map01 [.a] rfl rfl (fitsForm_one hx)

/-- Settles O24: the response is `m10`, bit by bit the windows showing "10". -/
theorem map10MarksFalls : Obligations.Map10MarksFalls := by
  intro a b c s
  exact ⟨decodeRequest_code .map10 a b c, m10 a c, complete_eq _ noCarry s, fun _ hi => m10_getLsbD a c hi,
    fun _ _ hx => assemble_map10_one hx⟩

/-- Settles O25: the response is `m01`, bit by bit the windows showing "01". -/
theorem map01MarksRises : Obligations.Map01MarksRises := by
  intro a b c s
  exact ⟨decodeRequest_code .map01 a b c, m01 a c, complete_eq _ noCarry s, fun _ hi => m01_getLsbD a c hi,
    fun _ _ hx => assemble_map01_one hx⟩

end Sys2Proof.Machine
end

section
/-! Exceptions (60_exceptions.md): an index past the end of a table, for the lengths as 20_memory.md lists them. -/

namespace Sys2Proof.Machine

/-- Settles O32: the listed pairs are every table with its length, and at its length the shared table read raises
the error. -/
theorem tableReadOutOfRange : Obligations.TableReadOutOfRange := by
  intro s k t len hlisted hge
  have hpairs : (t, len) ∈ TableId.all.map fun u => (u, tableLen u) := hlisted
  obtain ⟨u, -, hu⟩ := List.mem_map.mp hpairs
  obtain ⟨rfl, rfl⟩ := Prod.mk.inj hu
  exact exec_ofTable_of_ge u hge s

end Sys2Proof.Machine
end

section
/-! The terms in which the proofs about steps and clock cycles are stated: what answers a request, a port's cycle in its
two halves, a step and a clock cycle as functions, and a response that waits for its presentation.

`Port.Awaits` stands first: Lean adds an inductive type only after the kernel has checked all that stands before it, so
that the proofs below do not wait for those checks beside the earlier ones, each in a thread with a stack of its own. -/

namespace Sys2Proof.Machine

/-- The response `r` is in flight, `d` cycles from its presentation, and what comes before it, taken by the host or
still in flight, is `before`. -/
inductive Port.Awaits (r : Response) (d : Nat) (before : List (Option Response)) (q : Port) : Prop
  | intro (older newer : List InFlight) (queue : q.inflight = older ++ ⟨r, d⟩ :: newer)
      (record : q.answers ++ older.map (fun f => some f.rsp) = before)

/-- `s` with the request `r` answered on the current port. -/
def State.answer (s : State) (r : Request) : State :=
  ({ s with port := { s.port with draws := s.port.draws + if callerUndefined r then 1 else 0 } } : State).withResponse
    (execResponse r (Config.selUndef s.served.length s.port.draws))

/-- A port in a cycle with `rst = 0` before the presentation: the clock edge, then the offered request is accepted and
answered if the port is ready. -/
def Port.edge (no : Nat) (p : Port) : Port :=
  match p.offered with
  | some r =>
    if p.tick.ready then
      { p.tick.popMove with
        inflight := p.tick.inflight ++ [⟨execResponse r (Config.selUndef no p.draws), Config.latency⟩],
        draws := p.draws + if callerUndefined r then 1 else 0 }
    else p.tick
  | none => p.tick.passIdle

/-- The state after a step: the current port's own cycle, and the end of its turn. -/
def State.next (s : State) : State := (s.onPort (portCycle s.rst s.served.length)).endTurn

/-- The port numbered `no` after `k` clock cycles, the reset input taking the values of `pin`. -/
def portAfter (no : Nat) : Nat → List Bool → Port → Port
  | 0, _, p => p
  | k + 1, pin, p => portAfter no k pin.tail (portCycle (pin.headD false) no p)

/-- The state after a clock cycle. -/
def State.cycled (s : State) : State := State.next^[s.ports.length] s

end Sys2Proof.Machine
end

section
/-! The byte-serial link and the round trip of the encoder (30_encoding.md R61 to R63, R73; 20_memory.md R43). -/

namespace Sys2Proof.Machine

/-! ## Bytes as numbers -/

@[simp] theorem toBytes_length {w : Nat} (n : Nat) (p : BitVec w) : (toBytes n p).length = n := by
  simp [toBytes]

theorem toBytes_succ {w : Nat} (n : Nat) (p : BitVec w) :
    toBytes (n + 1) p = toBytes n p ++ [p.extractLsb' (8 * n) 8] := by
  simp [toBytes, List.range_succ]

theorem ofBytes_append (bs cs : List Byte) : ofBytes (bs ++ cs) = ofBytes bs + 256 ^ bs.length * ofBytes cs := by
  induction bs with
  | nil => simp [ofBytes]
  | cons b bs ih =>
    simp only [List.cons_append, ofBytes, ih, List.length_cons, Nat.pow_succ']
    ring

/-- The bytes of a packed form are the digits of its number to the base 256. -/
theorem ofBytes_toBytes {w : Nat} (n : Nat) (p : BitVec w) : ofBytes (toBytes n p) = p.toNat % 256 ^ n := by
  induction n with
  | zero => simp [toBytes, ofBytes, Nat.mod_one]
  | succ n ih =>
    have hbyte : (p.extractLsb' (8 * n) 8).toNat = p.toNat / 256 ^ n % 256 := by
      rw [BitVec.extractLsb'_toNat, Nat.shiftRight_eq_div_pow, Nat.pow_mul]
    rw [toBytes_succ, ofBytes_append, ih, toBytes_length, ofBytes, ofBytes, hbyte, Nat.pow_succ, Nat.mod_mul]
    simp

/-! ## Requests on the link -/

/-- Eighteen bytes of a number that fits the packed request are that request, whatever comes after them. -/
theorem readRequest_toBytes {w : Nat} {p : BitVec w} (h : p.toNat < 2 ^ 137) (rest : List Byte) :
    readRequest (toBytes 18 p ++ rest) = .ok (Request.unpack (BitVec.ofNat 137 p.toNat), rest) := by
  have hhead : ofBytes ((toBytes 18 p ++ rest).take 18) = p.toNat := by
    rw [List.take_left' (toBytes_length 18 p), ofBytes_toBytes, Nat.mod_eq_of_lt (h.trans (by decide))]
  have hlong : ¬ (toBytes 18 p ++ rest).length < 18 := by simp
  rw [readRequest, if_neg hlong, hhead, if_neg h.not_ge, List.drop_left' (toBytes_length 18 p)]

theorem decode_of_readRequest {bs rest : List Byte} {r : Request} {i : Instr} (hr : readRequest bs = .ok (r, rest))
    (hi : decodeRequest r = .ok i) : decode bs = .ok (i, rest) := by
  simp [decode, hr, hi]

theorem readRequest_request_toBytes (r : Request) (rest : List Byte) :
    readRequest (r.toBytes ++ rest) = .ok (r, rest) := by
  rw [Request.toBytes, readRequest_toBytes r.pack.isLt, BitVec.ofNat_toNat, BitVec.setWidth_eq, request_unpack_pack]

/-! ## The round trip -/

/-- Every instruction's request carries the code of the one operation that reads the instruction back. -/
theorem encodeShape (i : Instr) : Laws.EncodeShape.Statement i := by
  cases i with
  | cnt a => exact Laws.EncodeShape.cnt a
  | cnt32 a => exact Laws.EncodeShape.cnt32 a
  | cnt8 a => exact Laws.EncodeShape.cnt8 a
  | hi a => exact Laws.EncodeShape.hi a
  | lo a => exact Laws.EncodeShape.lo a
  | cnt11 a => exact Laws.EncodeShape.cnt11 a
  | cnt11c a c => exact Laws.EncodeShape.cnt11c a c
  | cnt10c a c => exact Laws.EncodeShape.cnt10c a c
  | cnt01c a c => exact Laws.EncodeShape.cnt01c a c
  | map10 a c => exact Laws.EncodeShape.map10 a c
  | map01 a c => exact Laws.EncodeShape.map01 a c
  | sel a k => exact Laws.EncodeShape.sel a k
  | trdAllset k => exact Laws.EncodeShape.trdAllset k
  | trdDebruijn k => exact Laws.EncodeShape.trdDebruijn k
  | trdDb2idx k => exact Laws.EncodeShape.trdDb2idx k
  | trdFib k => exact Laws.EncodeShape.trdFib k
  | trdCnt k => exact Laws.EncodeShape.trdCnt k
  | trdHi k => exact Laws.EncodeShape.trdHi k
  | trdLo k => exact Laws.EncodeShape.trdLo k
  | trdLoset k => exact Laws.EncodeShape.trdLoset k
  | trdLounset k => exact Laws.EncodeShape.trdLounset k
  | trdSel k => exact Laws.EncodeShape.trdSel k
  | trdPsovf k => exact Laws.EncodeShape.trdPsovf k

@[simp] theorem decodeRequest_encodeRequest (i : Instr) : decodeRequest (encodeRequest i) = .ok i := by
  obtain ⟨o, ho, -, hinstr, -⟩ := encodeShape i
  rw [decodeRequest_of_op ho, hinstr]

/-- Settles O1: the operation of the encoded request reads the instruction back, and the link gives the request
back. -/
theorem decodeEncodeRoundTrip : Obligations.DecodeEncodeRoundTrip := by
  intro i rest _
  exact ⟨decodeRequest_encodeRequest i,
    decode_of_readRequest (readRequest_request_toBytes _ rest) (decodeRequest_encodeRequest i)⟩

/-! ## Table words -/

theorem readRequest_tableWord {nbits : Nat} (hn : nbits ≤ 137) (w : Nat) :
    readRequest (toBytes 18 (BitVec.ofNat 144 (w % 2 ^ nbits))) = .ok (requestOfTableWord nbits w, []) := by
  have hlt : w % 2 ^ nbits < 2 ^ 137 :=
    (Nat.mod_lt _ (Nat.two_pow_pos nbits)).trans_le (Nat.pow_le_pow_right (by decide) hn)
  have hnat : (BitVec.ofNat 144 (w % 2 ^ nbits)).toNat = w % 2 ^ nbits := by
    rw [BitVec.toNat_ofNat, Nat.mod_eq_of_lt (hlt.trans (by decide))]
  have hread := readRequest_toBytes (hnat.symm ▸ hlt) []
  rwa [List.append_nil, hnat] at hread

/-- What the byte decoder reads from a table word is what its request decodes to. -/
theorem decodeTableWord_eq_some_iff {nbits w : Nat} {i : Instr} (hn : nbits ≤ 137) :
    decodeTableWord nbits w = some i ↔ decodeRequest (requestOfTableWord nbits w) = .ok i := by
  have hread := readRequest_tableWord hn w
  cases h : decodeRequest (requestOfTableWord nbits w) with
  | error e => simp [decodeTableWord, decode, hread, h]
  | ok j => simp [decodeTableWord, decode, hread, h]

/-- Settles O6: the fields of each word, as its request holds them. -/
theorem sampleWordsDecode : Obligations.SampleWordsDecode := by
  simp only [Obligations.SampleWordsDecode, decodeTableWord_eq_some_iff le_rfl]
  decide

/-! ## The packed response (R63, R200) -/

@[simp] theorem ofCode_status_code (e : Status) : Status.ofCode e.code = e := by
  cases e <;> rfl

@[simp] theorem code_status_ofCode (c : BitVec 2) : (Status.ofCode c).code = c := by
  revert c
  decide

theorem response_pack_y (r : Response) : r.pack.extractLsb' 0 64 = r.y :=
  BitVec.extractLsb'_append_eq_right

theorem response_pack_cout (r : Response) : r.pack.getLsbD 64 = r.cout := by
  simp only [Response.pack, BitVec.getLsbD_append]
  simp

theorem response_pack_status (r : Response) : r.pack.extractLsb' 65 2 = r.status.code := by
  unfold Response.pack
  rw [BitVec.extractLsb'_append_eq_of_le (by decide)]
  exact BitVec.extractLsb'_append_eq_left

@[simp] theorem response_unpack_pack (r : Response) : Response.unpack r.pack = r := by
  simp only [Response.unpack, response_pack_y, response_pack_cout, response_pack_status, ofCode_status_code]

/-- The three slices are adjacent and cover all 67 bits. -/
@[simp] theorem response_pack_unpack (p : BitVec 67) : (Response.unpack p).pack = p := by
  simp only [Response.pack, Response.unpack, code_status_ofCode, ofBool_getLsbD_eq_extractLsb']
  rw [BitVec.extractLsb'_append_extractLsb'_eq_extractLsb' (show 65 = 64 + 1 from rfl),
    BitVec.extractLsb'_append_extractLsb'_eq_extractLsb' (show 64 = 0 + 64 from rfl)]
  exact BitVec.extractLsb'_eq_self

/-- Settles O3: the fields of the packed form one by one, both round trips, and the byte order of `toBytes`. -/
theorem packedResponseLayout : Obligations.PackedResponseLayout :=
  ⟨fun r => ⟨response_pack_y r, response_pack_cout r, response_pack_status r, response_unpack_pack r,
    fun _ hn => toBytes_bit r.pack (by omega)⟩, response_pack_unpack, rfl, rfl, rfl, rfl⟩

end Sys2Proof.Machine
end

section
/-! The transaction level (30_encoding.md R62, R64, R71): what each of SEL's cases answers, and that serving a request
answers it with `execResponse` and leaves the rest of the machine as it is. -/

namespace Sys2Proof.Machine

/-! ## SEL (46_select_within_word.md R190 to R192) -/

theorem selOutOfRange_iff {i : Word} : selOutOfRange i = true ↔ i.toNat = 0 ∨ 65 ≤ i.toNat := by
  simp [selOutOfRange]

theorem execSel_outOfRange {i : Word} (h : i.toNat = 0 ∨ 65 ≤ i.toNat) (a : Word) (s : State) :
    execSel a i s = .next (s.withResponse (errorResponse .selRange)) := by
  rw [execSel, if_pos (selOutOfRange_iff.mpr h), raise_eq]

theorem execSel_draw {a i : Word} (hi : ¬ (i.toNat = 0 ∨ 65 ≤ i.toNat)) (h : popcount a < i.toNat) (s : State) :
    execSel a i s = .next (s.afterDraw.withResponse ⟨s.drawn, false, .ok⟩) := by
  rw [execSel, if_neg (mt selOutOfRange_iff.mp hi), if_pos h]
  exact complete_eq _ noCarry _

theorem execSel_select {a i : Word} (hi : ¬ (i.toNat = 0 ∨ 65 ≤ i.toNat)) (h : i.toNat ≤ popcount a) (s : State) :
    execSel a i s = .next (s.withResponse ⟨zextNat (selPos a i.toNat), false, .ok⟩) := by
  rw [execSel, if_neg (mt selOutOfRange_iff.mp hi), if_neg h.not_gt]
  exact complete_eq _ noCarry _

/-- Settles O28, case by case; a set position is the i-th when `i` bits are set up to it. -/
theorem selSelectsOrDraws : Obligations.SelSelectsOrDraws := by
  intro a i cin s
  simp only [← rank_eq_countPositions]
  refine ⟨decodeRequest_code .sel a i cin, fun h => execSel_outOfRange h a s, fun h1 h64 hcount => ?_,
    fun h1 h64 hcount => execSel_draw (by omega) hcount s⟩
  obtain ⟨hlt, hbit, hrank⟩ := selPos_spec a h1 hcount
  exact ⟨selPos a i.toNat, hlt, execSel_select (by omega) hcount s, hbit, hrank⟩

/-- A negative host index is at least 2^63 as a pattern. -/
theorem le_toNat_ofInt_of_neg {z : Int} (hlow : -(2 ^ 63) ≤ z) (hneg : z < 0) :
    2 ^ 63 ≤ (BitVec.ofInt 64 z).toNat := by
  rw [BitVec.toNat_ofInt]
  omega

/-- Settles O29: the two cases in range answer OK, and negative indexes are above 64. -/
theorem selRangeChecked : Obligations.SelRangeChecked := by
  refine ⟨fun a i s h => execSel_outOfRange h a s, fun a i s t hi hexec => ?_, fun a z s hlow hneg => ?_⟩
  · have hexec : execSel a i s = .next t := hexec
    rcases Nat.lt_or_ge (popcount a) i.toNat with hlt | hle
    · rw [execSel_draw hi hlt] at hexec
      cases hexec
      exact ⟨s.drawn, s.port.draws + 1, rfl⟩
    · rw [execSel_select hi hle] at hexec
      cases hexec
      exact ⟨zextNat (selPos a i.toNat), s.port.draws, rfl⟩
  · exact execSel_outOfRange (.inr ((show 65 ≤ 2 ^ 63 by decide).trans (le_toNat_ofInt_of_neg hlow hneg))) a s

/-! ## Serving a request -/

theorem callerUndefined_iff {r : Request} : callerUndefined r = true ↔
    Op.ofCode r.cmd = some .sel ∧ ¬ (r.b.toNat = 0 ∨ 65 ≤ r.b.toNat) ∧ popcount r.a < r.b.toNat := by
  simp only [callerUndefined, Bool.and_eq_true, beq_iff_eq, decide_eq_true_eq, and_assoc]
  exact and_congr_right fun _ => by omega

theorem callerUndefined_of_ne_sel {r : Request} (h : Op.ofCode r.cmd ≠ some .sel) : callerUndefined r = false :=
  Bool.eq_false_iff.mpr fun hu => h (callerUndefined_iff.mp hu).1

/-- Where the response is fixed, answering draws nothing. -/
theorem answer_of_fixed {r : Request} (h : callerUndefined r = false) (s : State) :
    s.answer r = s.withResponse (execResponse r s.drawn) := by
  simp only [State.answer, h]
  rfl

theorem answer_of_callerUndefined {r : Request} (h : callerUndefined r = true) (s : State) :
    s.answer r = s.afterDraw.withResponse (execResponse r s.drawn) := by
  simp only [State.answer, h]
  rfl

theorem execSel_eq_answer {r : Request} (ho : Op.ofCode r.cmd = some .sel) (s : State) :
    execSel r.a r.b s = .next (s.answer r) := by
  by_cases hrange : r.b.toNat = 0 ∨ 65 ≤ r.b.toNat
  · have hfixed : callerUndefined r = false := Bool.eq_false_iff.mpr fun hu => (callerUndefined_iff.mp hu).2.1 hrange
    rw [execSel_outOfRange hrange, answer_of_fixed hfixed]
    simp only [execResponse, ho, if_pos hrange]
  by_cases hdraw : popcount r.a < r.b.toNat
  · rw [execSel_draw hrange hdraw, answer_of_callerUndefined (callerUndefined_iff.mpr ⟨ho, hrange, hdraw⟩)]
    simp only [execResponse, ho, if_neg hrange, if_pos hdraw]
  · have hfixed : callerUndefined r = false := Bool.eq_false_iff.mpr fun hu => hdraw (callerUndefined_iff.mp hu).2.2
    rw [execSel_select hrange (Nat.not_lt.mp hdraw), answer_of_fixed hfixed]
    simp only [execResponse, ho, if_neg hrange, if_neg hdraw]

theorem tableRead_eq_answer {r : Request} {t : TableId} (ho : Op.ofCode r.cmd = some (.trd t)) (s : State) :
    tableRead t r.b s = .next (s.answer r) := by
  rw [answer_of_fixed (callerUndefined_of_ne_sel (by simp [ho]))]
  by_cases hk : r.b.toNat < tableLen t
  · rw [tableRead_of_lt hk]
    simp only [execResponse, ho, if_pos hk]
  · rw [tableRead_of_ge (Nat.not_lt.mp hk)]
    simp only [execResponse, ho, if_neg hk]

theorem exec_instr_eq_answer {r : Request} {o : Op} (ho : Op.ofCode r.cmd = some o) (s : State) :
    exec (o.instr r) s = .next (s.answer r) := by
  cases o with
  | sel => exact execSel_eq_answer ho s
  | trd t => exact (exec_ofTable t r.b s).trans (tableRead_eq_answer ho s)
  | _ =>
    rw [answer_of_fixed (callerUndefined_of_ne_sel (by simp [ho]))]
    simp only [execResponse, ho]
    rfl

/-- Serving a request answers it. -/
theorem serve_eq_answer (r : Request) (s : State) : serve r s = .next (s.answer r) := by
  cases ho : Op.ofCode r.cmd with
  | some o => rw [serve_of_op ho, exec_instr_eq_answer ho]
  | none =>
    rw [serve_of_no_op ho, answer_of_fixed (callerUndefined_of_ne_sel (by simp [ho]))]
    simp only [execResponse, ho]

/-- Outside SEL's caller-undefined case the draw is not used (R64). -/
theorem execResponse_congr_draw {r : Request} (h : callerUndefined r = false) (d d' : Word) :
    execResponse r d = execResponse r d' := by
  cases ho : Op.ofCode r.cmd with
  | none => simp only [execResponse, ho]
  | some o =>
    cases o with
    | sel =>
      have hfixed : (r.b.toNat = 0 ∨ 65 ≤ r.b.toNat) ∨ ¬ popcount r.a < r.b.toNat := by
        by_contra hc
        rw [not_or, not_not] at hc
        rw [callerUndefined_iff.mpr ⟨ho, hc⟩] at h
        cases h
      simp only [execResponse, ho]
      rcases hfixed with hrange | hfew
      · simp only [if_pos hrange]
      · simp only [if_neg hfew]
    | _ => simp only [execResponse, ho]

/-- Settles O41: operation by operation, and the draw stands only in the caller-undefined case. -/
theorem servedRequestAnswered : Obligations.ServedRequestAnswered :=
  fun r s => ⟨serve_eq_answer r s, execResponse_congr_draw⟩

/-! ## The frame of an instruction (R71, 60_exceptions.md R200, R203) -/

/-- An instruction is the answer to its own encoding. -/
theorem exec_eq_answer (i : Instr) (s : State) : exec i s = .next (s.answer (encodeRequest i)) := by
  rw [← serve_of_decode (decodeRequest_encodeRequest i), serve_eq_answer]

theorem answer_eq_frame (s : State) (r : Request) :
    s.answer r = { s with port := { s.port with
      inflight := s.port.inflight ++ [⟨execResponse r (Config.selUndef s.served.length s.port.draws), Config.latency⟩],
      draws := s.port.draws + if callerUndefined r then 1 else 0 } } := rfl

/-- An operation answers OK with `cout = 0`, OK with a carry if it is one of the three carry counts, or the error of
SEL or of a table read. -/
theorem execResponse_cases {r : Request} {o : Op} (ho : Op.ofCode r.cmd = some o) (d : Word) :
    (o = .sel ∧ execResponse r d = errorResponse .selRange) ∨
    (∃ t, o = .trd t ∧ execResponse r d = errorResponse .tableRange) ∨
    (∃ y, execResponse r d = ⟨y, false, .ok⟩) ∨
    ((o = .cnt11c ∨ o = .cnt10c ∨ o = .cnt01c) ∧ ∃ y, execResponse r d = ⟨y, r.a.getLsbD 63, .ok⟩) := by
  rw [execResponse, ho]
  cases o with
  | sel =>
    dsimp only
    split_ifs
    · exact .inl ⟨rfl, rfl⟩
    · exact .inr (.inr (.inl ⟨_, rfl⟩))
    · exact .inr (.inr (.inl ⟨_, rfl⟩))
  | trd t =>
    dsimp only
    split_ifs
    · exact .inr (.inr (.inl ⟨_, rfl⟩))
    · exact .inr (.inl ⟨t, rfl, rfl⟩)
  | cnt11c => exact .inr (.inr (.inr ⟨.inl rfl, _, rfl⟩))
  | cnt10c => exact .inr (.inr (.inr ⟨.inr (.inl rfl), _, rfl⟩))
  | cnt01c => exact .inr (.inr (.inr ⟨.inr (.inr rfl), _, rfl⟩))
  | _ => exact .inr (.inr (.inl ⟨_, rfl⟩))

theorem lawful_errorResponse (e : Status) : lawful (errorResponse e) := fun _ => ⟨rfl, rfl⟩

theorem lawful_of_ok {r : Response} (h : r.status = .ok) : lawful r := fun hne => absurd h hne

/-- Every response of the unit is lawful (R203). -/
theorem lawful_execResponse (r : Request) (d : Word) : lawful (execResponse r d) := by
  cases ho : Op.ofCode r.cmd with
  | none =>
    simp only [execResponse, ho]
    exact lawful_errorResponse .illegalOp
  | some o =>
    obtain ⟨-, h⟩ | ⟨t, -, h⟩ | ⟨y, h⟩ | ⟨-, y, h⟩ := execResponse_cases ho d <;> rw [h]
    · exact lawful_errorResponse .selRange
    · exact lawful_errorResponse .tableRange
    · exact lawful_of_ok rfl
    · exact lawful_of_ok rfl

/-- A carry-out of 1 is bit 63 of a carry count's word. -/
theorem carry_of_cout_execResponse {r : Request} {o : Op} (ho : Op.ofCode r.cmd = some o) {d : Word}
    (h : (execResponse r d).cout = true) :
    (o = .cnt11c ∨ o = .cnt10c ∨ o = .cnt01c) ∧ r.a.getLsbD 63 = true := by
  obtain ⟨-, he⟩ | ⟨t, -, he⟩ | ⟨y, he⟩ | ⟨hop, y, he⟩ := execResponse_cases ho d <;> rw [he] at h
  · cases h
  · cases h
  · cases h
  · exact ⟨hop, h⟩

theorem status_execResponse_cases {r : Request} {o : Op} (ho : Op.ofCode r.cmd = some o) (d : Word) :
    (execResponse r d).status = .ok ∨ (o = .sel ∧ (execResponse r d).status = .selRange) ∨
      ∃ t, o = .trd t ∧ (execResponse r d).status = .tableRange := by
  obtain ⟨hop, he⟩ | ⟨t, hop, he⟩ | ⟨y, he⟩ | ⟨-, y, he⟩ := execResponse_cases ho d <;> rw [he]
  · exact .inr (.inl ⟨hop, rfl⟩)
  · exact .inr (.inr ⟨t, hop, rfl⟩)
  · exact .inl rfl
  · exact .inl rfl

/-- The draw of an instruction is that of SEL's caller-undefined case. -/
theorem draws_encodeRequest_cases (i : Instr) :
    (if callerUndefined (encodeRequest i) then 1 else 0) = 0 ∨
    ((if callerUndefined (encodeRequest i) then 1 else 0) = 1 ∧
      ∃ a k, i = .sel a k ∧ 1 ≤ k.toNat ∧ k.toNat ≤ 64 ∧ popcount a < k.toNat) := by
  obtain ⟨o, ho, -, hinstr, -⟩ := encodeShape i
  cases hu : callerUndefined (encodeRequest i) with
  | false => exact .inl rfl
  | true =>
    obtain ⟨hsel, hrange, hfew⟩ := callerUndefined_iff.mp hu
    obtain rfl : o = .sel := Option.some.inj (ho.symm.trans hsel)
    exact .inr ⟨rfl, _, _, hinstr.symm, by omega, by omega, hfew⟩

/-- Settles O43: an instruction is answered as its encoding is, and the operation of the encoding, which reads the
instruction back, says what carry and what status there can be. -/
theorem execFrame : Obligations.ExecFrame := by
  intro i s t hexec
  rw [exec_eq_answer] at hexec
  cases hexec
  obtain ⟨o, ho, -, hinstr, -⟩ := encodeShape i
  have hstatus := status_execResponse_cases ho (Config.selUndef s.served.length s.port.draws)
  refine ⟨_, _, answer_eq_frame s (encodeRequest i), draws_encodeRequest_cases i, ?cout, ?sel, ?table, ?legal,
    lawful_execResponse _ _⟩
  case cout =>
    intro hcarry
    obtain ⟨hop, hbit⟩ := carry_of_cout_execResponse ho hcarry
    refine ⟨(encodeRequest i).a, (encodeRequest i).cin, ?_, hbit⟩
    rcases hop with rfl | rfl | rfl
    · exact .inl hinstr.symm
    · exact .inr (.inl hinstr.symm)
    · exact .inr (.inr hinstr.symm)
  case sel =>
    intro hsel
    obtain h | ⟨rfl, -⟩ | ⟨u, -, h⟩ := hstatus
    · rw [h] at hsel; cases hsel
    · exact ⟨_, _, hinstr.symm⟩
    · rw [h] at hsel; cases hsel
  case table =>
    intro htable
    obtain h | ⟨-, h⟩ | ⟨u, rfl, -⟩ := hstatus
    · rw [h] at htable; cases htable
    · rw [h] at htable; cases htable
    · exact ⟨_, u, hinstr.symm⟩
  case legal =>
    obtain h | ⟨-, h⟩ | ⟨u, -, h⟩ := hstatus <;> rw [h] <;> decide

end Sys2Proof.Machine
end

section
/-! Steps and clock cycles (30_encoding.md R62, R66; 60_exceptions.md R222). A step is a function, `State.next`; a clock
cycle applies `portCycle` to every port, so that `k` of them apply `portAfter` to each port on its own. -/

namespace Sys2Proof.Machine

/-! ## One port's cycle -/

theorem edge_of_accepted {p : Port} {r : Request} (ho : p.offered = some r) (hr : p.tick.ready = true) (no : Nat) :
    p.edge no = { p.tick.popMove with
      inflight := p.tick.inflight ++ [⟨execResponse r (Config.selUndef no p.draws), Config.latency⟩],
      draws := p.draws + if callerUndefined r then 1 else 0 } := by
  simp only [Port.edge, ho, hr]
  rfl

theorem edge_of_notReady {p : Port} {r : Request} (ho : p.offered = some r) (hr : p.tick.ready = false) (no : Nat) :
    p.edge no = p.tick := by
  simp only [Port.edge, ho, hr]
  rfl

theorem edge_of_noOffer {p : Port} (ho : p.offered = none) (no : Nat) : p.edge no = p.tick.passIdle := by
  simp only [Port.edge, ho]

/-- With `rst = 0` the presentation follows the edge. -/
theorem portCycle_false (no : Nat) (p : Port) : portCycle false no p = (p.edge no).deliver := by
  cases ho : p.offered with
  | none =>
    rw [edge_of_noOffer ho]
    simp only [portCycle, ho]
    rfl
  | some r =>
    cases hr : p.tick.ready with
    | true =>
      rw [edge_of_accepted ho hr]
      simp only [portCycle, ho, hr]
      rfl
    | false =>
      rw [edge_of_notReady ho hr]
      simp only [portCycle, ho, hr]
      rfl

/-! ## A step -/

/-- A step always answers, and nothing of it depends on another port. -/
theorem step_eq_next (s : State) : step s = .next s.next := by
  rw [step_eq_cycle, State.next]
  obtain ⟨hrst, h⟩ | ⟨hrst, r, ho, hr, h⟩ | ⟨hrst, ⟨r, ho, hr⟩, h⟩ | ⟨hrst, ho, h⟩ := cycle_cases s <;>
    rw [h, hrst]
  case inl => rfl
  case inr.inl =>
    have hport : portCycle false s.served.length s.port = (s.accept.answer r).port.deliver := by
      rw [portCycle_false, edge_of_accepted ho hr]
      rfl
    rw [serve_eq_answer, State.onPort, hport]
    rfl
  case inr.inr.inl =>
    have hport : portCycle false s.served.length s.port = s.port.tick.deliver := by
      rw [portCycle_false, edge_of_notReady ho hr]
    rw [State.onPort, State.onPort, hport]
    rfl
  case inr.inr.inr =>
    have hport : portCycle false s.served.length s.port = s.port.tick.passIdle.deliver := by
      rw [portCycle_false, edge_of_noOffer ho]
    rw [State.onPort, State.onPort, hport]
    rfl

theorem next_of_step {s t : State} (h : step s = .next t) : t = s.next :=
  Host.Outcome.next.inj (h.symm.trans (step_eq_next s))

theorem run_eq_iterate (n : Nat) (s : State) : run n s = .next (State.next^[n] s) := by
  induction n generalizing s with
  | zero => rfl
  | succ n ih => rw [run_succ_of_next (step_eq_next s), ih, Function.iterate_succ_apply]

theorem next_ports (s : State) :
    s.next.ports = s.served ++ portCycle s.rst s.served.length s.port :: s.waiting := endTurn_ports _

/-- Port by port: the port whose turn it is has its cycle, every other port stays. -/
theorem next_ports_getElem? (s : State) (m : Nat) : s.next.ports[m]? =
    (s.ports[m]?).map (fun p => if m = s.served.length then portCycle s.rst m p else p) := by
  rw [next_ports, State.ports]
  rcases Nat.lt_trichotomy m s.served.length with hlt | rfl | hgt
  · simp [List.getElem?_append_left hlt, hlt.ne]
  · simp
  · obtain ⟨j, rfl⟩ := Nat.exists_eq_add_of_lt hgt
    simp [List.getElem?_append_right, Nat.add_assoc]

/-- Settles O44: the next state is `State.next`. -/
theorem stepAlwaysGoesOn : Obligations.StepAlwaysGoesOn := fun s => ⟨s.next, step_eq_next s⟩

/-- Settles O45: the decoded instruction is how an accepted request is served. -/
theorem stepRunsDecodedInstruction : Obligations.StepRunsDecodedInstruction := by
  intro s r i hrst ho hr hi
  rw [step_accept hrst ho hr, serve_of_decode hi]

/-- Settles O46: the loaded request is offered to a ready port, and decodes as the table word does. -/
theorem loadedWordRunsNext : Obligations.LoadedWordRunsNext := by
  intro s nbits w i hn hi
  refine ⟨?_, rfl, rfl, rfl⟩
  rw [step_accept (withFetchWord_rst s nbits w) (withFetchWord_offered s nbits w) (withFetchWord_ready s nbits w),
    serve_of_decode ((decodeTableWord_eq_some_iff hn).mp hi)]

/-- Settles O49: the end of a turn moves no port, so only the current one is changed. -/
theorem stepIsOnePortsCycle : Obligations.StepIsOnePortsCycle :=
  fun s => ⟨s.next, step_eq_next s, next_ports s⟩

/-! ## A clock cycle -/

/-- The turns left in a cycle: the ports that have had theirs stay, the others have their cycles, and the next cycle
begins. -/
theorem iterate_next_rest_of_cycle (rst : Bool) (ws : List Port) : ∀ s : State, s.waiting = ws → s.rst = rst →
    (State.next^[ws.length + 1] s).atCycleStart ∧ (State.next^[ws.length + 1] s).rstPin = s.rstPin.tail ∧
    (State.next^[ws.length + 1] s).ports =
      s.served ++ (s.port :: ws).mapIdx (fun j => portCycle rst (s.served.length + j)) := by
  induction ws with
  | nil =>
    intro s hw hrst
    obtain ⟨hserved, hpin⟩ := endTurn_of_last (s := s.onPort (portCycle s.rst s.served.length)) hw
    refine ⟨hserved, hpin, ?_⟩
    simp [next_ports, hw, hrst]
  | cons q qs ih =>
    intro s hw hrst
    have hnext : s.next = { s with served := s.served ++ [portCycle rst s.served.length s.port], port := q,
                                   waiting := qs } := by
      rw [State.next, endTurn_of_waiting (s := s.onPort _) hw, hrst]
      rfl
    obtain ⟨hserved, hpin, hports⟩ := ih s.next (by rw [hnext]) (by rw [hnext]; exact hrst)
    rw [List.length_cons, Function.iterate_succ_apply]
    refine ⟨hserved, by rw [hpin, hnext], ?_⟩
    rw [hports, hnext]
    simp [List.mapIdx_cons, Nat.add_assoc, Nat.add_comm 1]

/-- A clock cycle from the turn of port 0. -/
theorem cycled_spec {s : State} (h : s.atCycleStart) :
    s.cycled.atCycleStart ∧ s.cycled.rstPin = s.rstPin.tail ∧ s.cycled.ports = s.ports.mapIdx (portCycle s.rst) := by
  have hlen : s.ports.length = s.waiting.length + 1 := by simp [State.ports, show s.served = [] from h]
  have hrest := iterate_next_rest_of_cycle s.rst s.waiting s rfl rfl
  rw [show s.served = [] from h] at hrest
  simpa [State.cycled, hlen, State.ports, show s.served = [] from h] using hrest

theorem runCycles_one (s : State) : runCycles 1 s = .next s.cycled := by
  rw [runCycles, Nat.one_mul, run_eq_iterate, State.cycled]

/-- Settles O50: the turns of a cycle, counted from port 0. -/
theorem clockCycleOfAllPorts : Obligations.ClockCycleOfAllPorts :=
  fun s h => ⟨s.cycled, runCycles_one s, cycled_spec h⟩

/-- Settles O54: a cycle with `rst = 1` makes `resetCycle` of every port. -/
theorem resetEmptiesEveryPort : Obligations.ResetEmptiesEveryPort := by
  intro s hstart hrst
  obtain ⟨-, -, hports⟩ := cycled_spec hstart
  refine ⟨s.cycled, runCycles_one s, by rw [hports, List.length_mapIdx], fun m p q hp hq => ?_⟩
  rw [hports, List.getElem?_mapIdx, hp, hrst] at hq
  obtain rfl : p.resetCycle = q := Option.some.inj hq
  exact ⟨rfl, rfl, rfl, rfl, by simp [List.map_const']⟩

/-! ## Many clock cycles -/

theorem runCycles_succ {s : State} (h : s.atCycleStart) (k : Nat) : runCycles (k + 1) s = runCycles k s.cycled := by
  have hlen : s.cycled.ports.length = s.ports.length := by rw [(cycled_spec h).2.2, List.length_mapIdx]
  rw [runCycles, runCycles, run_eq_iterate, run_eq_iterate, hlen, Nat.succ_mul, Function.iterate_add_apply,
    State.cycled]

/-- After `k` clock cycles every port is what `k` cycles make of it alone. -/
theorem runCycles_spec (k : Nat) : ∀ {s : State}, s.atCycleStart → ∃ t, runCycles k s = .next t ∧ t.atCycleStart ∧
    t.ports = s.ports.mapIdx (fun m => portAfter m k s.rstPin) := by
  induction k with
  | zero =>
    intro s h
    exact ⟨s, by simp [runCycles], h, List.ext_getElem? fun m => by simp [portAfter]⟩
  | succ k ih =>
    intro s h
    obtain ⟨hstart, hpin, hports⟩ := cycled_spec h
    obtain ⟨t, hrun, ht, htports⟩ := ih hstart
    refine ⟨t, by rw [runCycles_succ h, hrun], ht, ?_⟩
    rw [htports, hpin, hports, List.mapIdx_mapIdx]
    rfl

/-- The ports of a state that `k` clock cycles answer, one by one. -/
theorem runCycles_getElem? {k m : Nat} {s t : State} (h : s.atCycleStart) (hrun : runCycles k s = .next t) :
    t.ports[m]? = (s.ports[m]?).map (portAfter m k s.rstPin) := by
  obtain ⟨u, hu, -, hports⟩ := runCycles_spec k h
  obtain rfl : u = t := Host.Outcome.next.inj (hu.symm.trans hrun)
  rw [hports, List.getElem?_mapIdx]

/-- While `rst` stays 0, every cycle is one without reset. -/
theorem portAfter_of_noReset (no k : Nat) : ∀ {pin : List Bool}, (∀ b ∈ pin.take k, b = false) →
    ∀ p, portAfter no k pin p = (portCycle false no)^[k] p := by
  induction k with
  | zero => exact fun _ _ => rfl
  | succ k ih =>
    intro pin hpin p
    have hhead : pin.headD false = false := by
      cases pin with
      | nil => rfl
      | cons b bs => exact hpin b (by simp)
    have htail : ∀ b ∈ pin.tail.take k, b = false := by
      cases pin with
      | nil => simp
      | cons b bs => exact fun c hc => hpin c (List.mem_cons_of_mem _ hc)
    rw [portAfter, hhead, ih htail, Function.iterate_succ_apply]

end Sys2Proof.Machine
end

section
/-! What a clock cycle leaves of one port: readiness, queue, record (10_state.md R27 to R29, 70_reset_and_hazards.md
R232, R242). -/

namespace Sys2Proof.Machine

/-! ## The edge -/

@[simp] theorem edge_ready (no : Nat) (p : Port) : (p.edge no).ready = (p.ready || p.initLeft == 0) := by
  unfold Port.edge
  split <;> [split <;> rfl; simp]

@[simp] theorem edge_initLeft (no : Nat) (p : Port) : (p.edge no).initLeft = p.initLeft - 1 := by
  unfold Port.edge
  split <;> [split <;> rfl; simp]

@[simp] theorem edge_out (no : Nat) (p : Port) : (p.edge no).out = none := by
  unfold Port.edge
  split <;> [split <;> rfl; simp]

@[simp] theorem edge_answers (no : Nat) (p : Port) : (p.edge no).answers = p.answers := by
  unfold Port.edge
  split <;> [split <;> rfl; simp]

/-- At most one response joins the queue, that of an accepted request. -/
theorem edge_inflight_cases (no : Nat) (p : Port) :
    (p.edge no).inflight = p.tick.inflight ∨
    p.tick.ready = true ∧ ∃ r, (p.edge no).inflight =
      p.tick.inflight ++ [⟨execResponse r (Config.selUndef no p.draws), Config.latency⟩] := by
  cases ho : p.offered with
  | none => exact .inl (by rw [edge_of_noOffer ho, passIdle_inflight])
  | some r =>
    cases hr : p.tick.ready with
    | false => exact .inl (by rw [edge_of_notReady ho hr])
    | true => exact .inr ⟨rfl, r, by rw [edge_of_accepted ho hr]⟩

theorem edge_history_cases (no : Nat) (p : Port) :
    (p.edge no).history = p.history ∨
    ∃ r, (p.edge no).history = p.history ++ [some (execResponse r (Config.selUndef no p.draws))] := by
  rw [← tick_history p]
  obtain h | ⟨-, r, h⟩ := edge_inflight_cases no p
  · exact .inl (by rw [Port.history, h, edge_answers]; rfl)
  · refine .inr ⟨r, ?_⟩
    rw [Port.history, h, edge_answers, List.map_append, ← List.append_assoc]
    rfl

/-! ## The presentation -/

theorem deliver_of_due {p : Port} {r : Response} {fs : List InFlight} (h : p.inflight = ⟨r, 0⟩ :: fs) :
    p.deliver = { p with inflight := fs, out := some r, answers := p.answers ++ [some r] } := by
  simp only [Port.deliver, h]

theorem deliver_of_not_due {p : Port} (h : ∀ f ∈ p.inflight.head?, f.due ≠ 0) : p.deliver = p := by
  unfold Port.deliver
  split
  · rename_i r fs hq
    exact absurd rfl (h ⟨r, 0⟩ (by simp [hq]))
  · rfl

/-- Either the oldest response is due and is presented, or the port stays as it is. -/
theorem deliver_cases (p : Port) : (∃ r fs, p.inflight = ⟨r, 0⟩ :: fs) ∨ ∀ f ∈ p.inflight.head?, f.due ≠ 0 := by
  rcases hq : p.inflight with _ | ⟨⟨r, _ | d⟩, fs⟩
  · exact .inr (by simp)
  · exact .inl ⟨r, fs, rfl⟩
  · exact .inr (by simp)

theorem deliver_inflight_sublist (p : Port) : p.deliver.inflight.Sublist p.inflight := by
  obtain ⟨r, fs, h⟩ | h := deliver_cases p
  · rw [deliver_of_due h, h]
    exact List.sublist_cons_self _ _
  · rw [deliver_of_not_due h]

theorem deliver_answers_grow (p : Port) : p.answers <+: p.deliver.answers := by
  obtain ⟨r, fs, h⟩ | h := deliver_cases p
  · rw [deliver_of_due h]
    exact List.prefix_append _ _
  · rw [deliver_of_not_due h]

/-- Where nothing was on the outputs before, a response is presented exactly as the host takes it. -/
theorem deliver_out_cases {p : Port} (h : p.out = none) :
    (p.deliver.out = none ∧ p.deliver.answers = p.answers) ∨
    ∃ r, p.deliver.out = some r ∧ p.deliver.answers = p.answers ++ [some r] := by
  obtain ⟨r, fs, hd⟩ | hd := deliver_cases p
  · exact .inr ⟨r, by rw [deliver_of_due hd], by rw [deliver_of_due hd]⟩
  · exact .inl ⟨by rw [deliver_of_not_due hd, h], by rw [deliver_of_not_due hd]⟩

/-! ## A cycle without reset -/

theorem portCycle_false_ready (no : Nat) (p : Port) :
    (portCycle false no p).ready = (p.ready || p.initLeft == 0) := by
  rw [portCycle_false, deliver_ready, edge_ready]

theorem portCycle_false_initLeft (no : Nat) (p : Port) : (portCycle false no p).initLeft = p.initLeft - 1 := by
  rw [portCycle_false, deliver_initLeft, edge_initLeft]

/-- Presentation is seen and recorded in the same cycle (R66). -/
theorem portCycle_false_out_cases (no : Nat) (p : Port) :
    ((portCycle false no p).out = none ∧ (portCycle false no p).answers = p.answers) ∨
    ∃ r, (portCycle false no p).out = some r ∧ (portCycle false no p).answers = p.answers ++ [some r] := by
  rw [portCycle_false, ← edge_answers no p]
  exact deliver_out_cases (edge_out no p)

theorem portCycle_false_history_grows (no : Nat) (p : Port) : p.history <+: (portCycle false no p).history := by
  rw [portCycle_false, deliver_history]
  obtain h | ⟨r, h⟩ := edge_history_cases no p
  · rw [h]
  · rw [h]
    exact List.prefix_append _ _

theorem portCycle_false_answers_grow (no : Nat) (p : Port) : p.answers <+: (portCycle false no p).answers := by
  rw [portCycle_false, ← edge_answers no p]
  exact deliver_answers_grow _

/-- Settles O47: the cycle is the edge alone, which leaves `ready` at 0 and the empty queue empty. -/
theorem requestHeldWhileNotReady : Obligations.RequestHeldWhileNotReady := by
  intro s r hrst ho hready hinit hempty
  have htick : s.port.tick = { s.port with initLeft := s.port.initLeft - 1, out := none } := by
    simp [Port.tick, hready, hinit, hempty]
  have hnotReady : s.port.tick.ready = false := by simp [hready, hinit]
  have hcycle : portCycle s.rst s.served.length s.port = s.port.tick := by
    rw [hrst, portCycle_false, edge_of_notReady ho hnotReady, deliver_of_not_due (by simp [hempty])]
  rw [step_eq_next, State.next, State.onPort, hcycle, htick]

/-! ## References (R242) -/

theorem response?_of_not_arrived {answers : List (Option Response)} {n : Nat} (h : answers.length < n) :
    response? answers n = none := by
  cases n with
  | zero => rfl
  | succ m => simp [response?, Nat.lt_succ_iff.mp h]

theorem resolve_of_not_arrived {answers : List (Option Response)} {n : Nat} {o : Operand} (h : answers.length < n)
    (ho : o = .yOf n ∨ o = .coutOf n) : resolve answers o = none := by
  rcases ho with rfl | rfl <;> simp [resolve, response?_of_not_arrived h]

theorem resolveCarry_of_resolve_eq_none {answers : List (Option Response)} {o : Operand}
    (h : resolve answers o = none) : resolveCarry answers o = none := by
  simp [resolveCarry, h]

/-- One operand that has not arrived holds the whole line back. -/
theorem resolveLine_eq_none {answers : List (Option Response)} {l : Line}
    (h : resolve answers l.a = none ∨ resolve answers l.b = none ∨ resolve answers l.cin = none) :
    resolveLine answers l = none := by
  unfold resolveLine
  rcases h with h | h | h
  · simp [h]
  · simp [h]
  · simp [resolveCarry_of_resolve_eq_none h]

/-- Settles O48: the line offers nothing, and without an offer the cycle holds the line and accepts nothing. -/
theorem hostWaitsForReference : Obligations.HostWaitsForReference := by
  intro s l ms n hrst hmoves href hn
  have hline : resolveLine s.port.answers l = none := by
    apply resolveLine_eq_none
    rcases href with h | h | h | h | h | h
    · exact .inl (resolve_of_not_arrived hn (.inl h))
    · exact .inl (resolve_of_not_arrived hn (.inr h))
    · exact .inr (.inl (resolve_of_not_arrived hn (.inl h)))
    · exact .inr (.inl (resolve_of_not_arrived hn (.inr h)))
    · exact .inr (.inr (resolve_of_not_arrived hn (.inl h)))
    · exact .inr (.inr (resolve_of_not_arrived hn (.inr h)))
  have ho : s.port.offered = none := by simp only [Port.offered, hmoves, hline]
  have hcycle : portCycle s.rst s.served.length s.port = s.port.tick.passIdle.deliver := by
    rw [hrst, portCycle_false, edge_of_noOffer ho]
  refine ⟨s.next, s.port.tick.passIdle.deliver, step_eq_next s, ?_, ?_, by simp, by simp⟩
  · rw [next_ports, hcycle]
    simp
  · rw [deliver_moves, passIdle_moves_offer (p := s.port.tick) hmoves, tick_moves, hmoves]

end Sys2Proof.Machine
end

section
/-! The delay of `ready` (70_reset_and_hazards.md R230 to R232). -/

namespace Sys2Proof.Machine

/-- From a full delay counter, after `k` cycles without reset. -/
theorem iterate_portCycle_ready {no : Nat} {p : Port} (hready : p.ready = false) (hinit : p.initLeft = Config.initCycles)
    (k : Nat) : ((portCycle false no)^[k] p).initLeft = Config.initCycles - k ∧
      (((portCycle false no)^[k] p).ready = true ↔ Config.initCycles < k) := by
  induction k with
  | zero => simp [hready, hinit]
  | succ k ih =>
    obtain ⟨hleft, hk⟩ := ih
    rw [Function.iterate_succ_apply', portCycle_false_initLeft, portCycle_false_ready, hleft, Bool.or_eq_true, hk,
      beq_iff_eq]
    omega

/-- Settles O55: every port on its own, by the count of its delay. -/
theorem readyRisesAfterInitCycles : Obligations.ReadyRisesAfterInitCycles := by
  intro k s t hstart hpin hfresh hrun q hq
  obtain ⟨m, hm⟩ := List.mem_iff_getElem?.mp hq
  rw [runCycles_getElem? hstart hrun, Option.map_eq_some_iff] at hm
  obtain ⟨p, hp, rfl⟩ := hm
  obtain ⟨hready, hinit⟩ := hfresh p (List.mem_of_getElem? hp)
  rw [portAfter_of_noReset m k hpin]
  exact (iterate_portCycle_ready hready hinit k).2

theorem reset_ports : State.reset.ports = List.replicate Config.nPorts Port.reset := rfl

theorem mem_reset_ports {p : Port} (h : p ∈ State.reset.ports) : p = Port.reset :=
  List.eq_of_mem_replicate (reset_ports ▸ h)

/-- Settles O53: every port is `Port.reset`. -/
theorem resetValues : Obligations.ResetValues := by
  refine ⟨by simp [reset_ports], by simp [reset_ports, Config.nPorts], fun p hp => ?_⟩
  rw [mem_reset_ports hp]
  exact ⟨rfl, rfl, rfl, rfl⟩

/-- A cycle with `rst = 1` fills the delay counter of every port. -/
theorem cycled_fresh_of_rst {s : State} (hstart : s.atCycleStart) (hrst : s.rst = true) {p : Port}
    (hp : p ∈ s.cycled.ports) : p.ready = false ∧ p.initLeft = Config.initCycles := by
  rw [(cycled_spec hstart).2.2, hrst, List.mem_mapIdx] at hp
  obtain ⟨m, hm, rfl⟩ := hp
  exact ⟨rfl, rfl⟩

/-- Settles O59: O55 from the state after the reset cycle, and from `State.reset`. -/
theorem readyRisesAfterReset : Obligations.ReadyRisesAfterReset := by
  refine ⟨fun k s t hstart hrst hpin hrun => ?_, fun k t hrun => ?_⟩
  · obtain ⟨hcycled, hrest, -⟩ := cycled_spec hstart
    rw [runCycles_succ hstart] at hrun
    exact readyRisesAfterInitCycles k s.cycled t hcycled (hrest ▸ hpin) (fun _ hp => cycled_fresh_of_rst hstart hrst hp)
      hrun
  · obtain ⟨-, -, hvalues⟩ := resetValues
    refine readyRisesAfterInitCycles k State.reset t rfl (by simp [State.reset]) (fun p hp => ?_) hrun
    obtain ⟨hready, -, -, hinit⟩ := hvalues p hp
    exact ⟨hready, hinit⟩

end Sys2Proof.Machine
end

section
/-! The invariant: every port keeps it, in a cycle with reset and without, and a step changes one port. -/

namespace Sys2Proof.Machine

/-! ## One port -/

theorem reset_inv : Port.reset.Inv where
  ready_init := nofun
  init_le := le_rfl
  notReady_quiet := fun _ => ⟨rfl, rfl⟩
  due_sorted := .nil
  due_range := by simp [Port.reset]
  history_lawful := by simp [Port.reset, Port.history]
  out_taken := nofun

/-- Reset empties the queue, and what it discards is recorded as never answered. -/
theorem resetCycle_inv {p : Port} (h : p.Inv) : p.resetCycle.Inv where
  ready_init := nofun
  init_le := le_rfl
  notReady_quiet := fun _ => ⟨rfl, rfl⟩
  due_sorted := .nil
  due_range := by simp
  history_lawful := by
    intro r hr
    have hanswered : some r ∈ p.answers := by simpa [Port.history] using hr
    exact h.history_lawful r (List.mem_append_left _ hanswered)
  out_taken := nofun

theorem tick_due_sorted {p : Port} (h : p.Inv) : p.tick.inflight.Pairwise (fun f g => f.due < g.due) := by
  rw [tick_inflight, List.pairwise_map]
  refine h.due_sorted.imp_of_mem fun hf _ hlt => ?_
  have := h.due_range _ hf
  dsimp only
  omega

theorem tick_due_lt {p : Port} (h : p.Inv) {f : InFlight} (hf : f ∈ p.tick.inflight) : f.due < Config.latency := by
  rw [tick_inflight, List.mem_map] at hf
  obtain ⟨g, hg, rfl⟩ := hf
  have := h.due_range g hg
  dsimp only
  omega

/-- Before the presentation the responses in flight are due in their order, the one just accepted last. -/
theorem edge_due_sorted {p : Port} (h : p.Inv) (no : Nat) :
    (p.edge no).inflight.Pairwise (fun f g => f.due < g.due) := by
  obtain hq | ⟨-, r, hq⟩ := edge_inflight_cases no p <;> rw [hq]
  · exact tick_due_sorted h
  · exact List.pairwise_append.mpr ⟨tick_due_sorted h, List.pairwise_singleton _ _,
      fun f hf g hg => by rw [List.mem_singleton.mp hg]; exact tick_due_lt h hf⟩

theorem edge_due_le {p : Port} (h : p.Inv) (no : Nat) {f : InFlight} (hf : f ∈ (p.edge no).inflight) :
    f.due ≤ Config.latency := by
  obtain hq | ⟨-, r, hq⟩ := edge_inflight_cases no p <;> rw [hq] at hf
  · exact (tick_due_lt h hf).le
  · rcases List.mem_append.mp hf with hold | hnew
    · exact (tick_due_lt h hold).le
    · rw [List.mem_singleton.mp hnew]

/-- The presentation takes away the one response that is due. -/
theorem deliver_due_pos {q : Port} (h : q.inflight.Pairwise (fun f g => f.due < g.due)) {f : InFlight}
    (hf : f ∈ q.deliver.inflight) : 1 ≤ f.due := by
  obtain ⟨r, fs, hq⟩ | hhead := deliver_cases q
  · rw [deliver_of_due hq] at hf
    rw [hq] at h
    exact (List.pairwise_cons.mp h).1 f hf
  · rw [deliver_of_not_due hhead] at hf
    cases hq : q.inflight with
    | nil => simp [hq] at hf
    | cons g gs =>
      have hg : g.due ≠ 0 := hhead g (by simp [hq])
      rw [hq] at h hf
      rcases List.mem_cons.mp hf with rfl | hrest
      · omega
      · have := (List.pairwise_cons.mp h).1 f hrest
        omega

/-- A port that is not ready after the edge accepted nothing and presents nothing. -/
theorem edge_quiet {p : Port} (h : p.Inv) {no : Nat} (hready : (p.edge no).ready = false) :
    (p.edge no).inflight = [] := by
  rw [edge_ready, Bool.or_eq_false_iff] at hready
  obtain ⟨hold, hinit⟩ := hready
  have hempty : p.tick.inflight = [] := by simp [(h.notReady_quiet hold).1]
  obtain hq | ⟨htick, -⟩ := edge_inflight_cases no p
  · rw [hq, hempty]
  · simp [hold, hinit] at htick

theorem edge_history_lawful {p : Port} (h : p.Inv) (no : Nat) {r : Response} (hr : some r ∈ (p.edge no).history) :
    lawful r := by
  obtain hh | ⟨req, hh⟩ := edge_history_cases no p <;> rw [hh] at hr
  · exact h.history_lawful r hr
  · rcases List.mem_append.mp hr with hold | hnew
    · exact h.history_lawful r hold
    · obtain rfl := Option.some.inj (List.mem_singleton.mp hnew)
      exact lawful_execResponse req _

theorem deliver_out_taken {q : Port} (hout : q.out = none) {r : Response} (hr : q.deliver.out = some r) :
    q.deliver.answers.getLast? = some (some r) := by
  obtain ⟨hnone, -⟩ | ⟨r', hsome, hanswers⟩ := deliver_out_cases hout
  · rw [hnone] at hr
    cases hr
  · obtain rfl := Option.some.inj (hsome.symm.trans hr)
    rw [hanswers, List.getLast?_append]
    rfl

theorem portCycle_false_inv {p : Port} (h : p.Inv) (no : Nat) : (portCycle false no p).Inv where
  ready_init := by
    intro hready
    rw [portCycle_false_ready, Bool.or_eq_true, beq_iff_eq] at hready
    rw [portCycle_false_initLeft]
    rcases hready with hold | hinit
    · rw [h.ready_init hold]
    · rw [hinit]
  init_le := (portCycle_false_initLeft no p).trans_le ((Nat.sub_le _ 1).trans h.init_le)
  notReady_quiet := by
    rw [portCycle_false, deliver_ready]
    intro hready
    have hempty := edge_quiet h hready
    rw [deliver_of_not_due (by simp [hempty])]
    exact ⟨hempty, edge_out no p⟩
  due_sorted := by
    rw [portCycle_false]
    exact (edge_due_sorted h no).sublist (deliver_inflight_sublist _)
  due_range := by
    rw [portCycle_false]
    exact fun f hf => ⟨deliver_due_pos (edge_due_sorted h no) hf,
      edge_due_le h no ((deliver_inflight_sublist _).subset hf)⟩
  history_lawful := by
    rw [portCycle_false, deliver_history]
    exact fun r => edge_history_lawful h no
  out_taken := by
    rw [portCycle_false]
    exact fun r => deliver_out_taken (edge_out no p)

theorem portCycle_inv {p : Port} (h : p.Inv) (rst : Bool) (no : Nat) : (portCycle rst no p).Inv := by
  cases rst with
  | true => exact resetCycle_inv h
  | false => exact portCycle_false_inv h no

theorem iterate_portCycle_inv {p : Port} (h : p.Inv) (no k : Nat) : ((portCycle false no)^[k] p).Inv := by
  induction k with
  | zero => exact h
  | succ k ih =>
    rw [Function.iterate_succ_apply']
    exact portCycle_false_inv ih no

/-! ## The machine -/

theorem next_ports_length (s : State) : s.next.ports.length = s.ports.length := by
  rw [next_ports]
  simp [State.ports]

/-- Settles O51: every port is `Port.reset`, which meets its invariant. -/
theorem invHoldsAfterReset : Obligations.InvHoldsAfterReset where
  ports_inv := fun p hp => by
    rw [mem_reset_ports hp]
    exact reset_inv
  ports_length := by simp [reset_ports]

/-- Settles O52: the port whose turn it is keeps its invariant through its cycle, and the others stay. -/
theorem stepKeepsInv : Obligations.StepKeepsInv := by
  intro s t hs hstep
  obtain rfl := next_of_step hstep
  refine ⟨fun q hq => ?_, (next_ports_length s).trans hs.ports_length⟩
  obtain ⟨m, hm⟩ := List.mem_iff_getElem?.mp hq
  rw [next_ports_getElem?, Option.map_eq_some_iff] at hm
  obtain ⟨p, hp, rfl⟩ := hm
  have hinv : p.Inv := hs.ports_inv p (List.mem_of_getElem? hp)
  split
  · exact portCycle_inv hinv s.rst m
  · exact hinv

end Sys2Proof.Machine
end

section
/-! Runs of steps: what a port's history keeps (60_exceptions.md R207), and that no port matters to another (R222). -/

namespace Sys2Proof.Machine

/-! ## The turn -/

theorem next_of_waiting {s : State} {q : Port} {qs : List Port} (h : s.waiting = q :: qs) :
    s.next.rstPin = s.rstPin ∧ s.next.served.length = s.served.length + 1 ∧ s.next.waiting = qs := by
  rw [State.next, endTurn_of_waiting (s := s.onPort _) h]
  simp

theorem next_of_last {s : State} (h : s.waiting = []) :
    s.next.rstPin = s.rstPin.tail ∧ s.next.served = [] ∧ s.next.waiting.length = s.served.length := by
  obtain ⟨hserved, hpin⟩ := endTurn_of_last (s := s.onPort (portCycle s.rst s.served.length)) h
  have hlen := next_ports_length s
  simp only [State.ports, h, show s.next.served = [] from hserved, List.nil_append, List.length_append,
    List.length_cons, List.length_nil] at hlen
  exact ⟨hpin, hserved, by omega⟩

/-- Whose turn it is, and the reset input, depend on no port. -/
theorem next_turn_congr {s s' : State} (hpin : s.rstPin = s'.rstPin) (hserved : s.served.length = s'.served.length)
    (hwaiting : s.waiting.length = s'.waiting.length) :
    s.next.rstPin = s'.next.rstPin ∧ s.next.served.length = s'.next.served.length ∧
      s.next.waiting.length = s'.next.waiting.length := by
  cases h : s.waiting with
  | nil =>
    have h' : s'.waiting = [] := List.length_eq_zero_iff.mp (by rw [← hwaiting, h, List.length_nil])
    obtain ⟨hp, hs, hw⟩ := next_of_last h
    obtain ⟨hp', hs', hw'⟩ := next_of_last h'
    exact ⟨by rw [hp, hp', hpin], by rw [hs, hs'], by rw [hw, hw', hserved]⟩
  | cons q qs =>
    obtain ⟨q', qs', h'⟩ := List.exists_cons_of_length_pos
      (show 0 < s'.waiting.length by rw [← hwaiting, h]; simp)
    obtain ⟨hp, hs, hw⟩ := next_of_waiting h
    obtain ⟨hp', hs', hw'⟩ := next_of_waiting h'
    rw [h, h', List.length_cons, List.length_cons, Nat.add_right_cancel_iff] at hwaiting
    exact ⟨by rw [hp, hp', hpin], by rw [hs, hs', hserved], by rw [hw, hw', hwaiting]⟩

/-! ## Other ports -/

theorem next_port_congr {s s' : State} {m : Nat} (hpin : s.rstPin = s'.rstPin)
    (hserved : s.served.length = s'.served.length) (hport : s.ports[m]? = s'.ports[m]?) :
    s.next.ports[m]? = s'.next.ports[m]? := by
  rw [next_ports_getElem?, next_ports_getElem?, hport, hserved, State.rst, State.rst, hpin]

theorem iterate_next_port_congr {m : Nat} (n : Nat) : ∀ {s s' : State}, s.rstPin = s'.rstPin →
    s.served.length = s'.served.length → s.waiting.length = s'.waiting.length → s.ports[m]? = s'.ports[m]? →
    (State.next^[n] s).ports[m]? = (State.next^[n] s').ports[m]? := by
  induction n with
  | zero => exact fun _ _ _ hport => hport
  | succ n ih =>
    intro s s' hpin hserved hwaiting hport
    obtain ⟨hp, hs, hw⟩ := next_turn_congr hpin hserved hwaiting
    exact ih hp hs hw (next_port_congr hpin hserved hport)

/-- Settles O58, by induction on the steps. -/
theorem otherPortsDoNotMatter : Obligations.OtherPortsDoNotMatter := by
  intro n m s s' t t' hpin hserved hwaiting hport hrun hrun'
  obtain rfl := Host.Outcome.next.inj ((run_eq_iterate n s).symm.trans hrun)
  obtain rfl := Host.Outcome.next.inj ((run_eq_iterate n s').symm.trans hrun')
  exact iterate_next_port_congr n hpin hserved hwaiting hport

/-! ## Histories -/

theorem rst_of_noReset {s : State} (h : ∀ b ∈ s.rstPin, b = false) : s.rst = false := by
  unfold State.rst
  cases hpin : s.rstPin with
  | nil => rfl
  | cons b bs => exact h b (by simp [hpin])

theorem next_noReset {s : State} (h : ∀ b ∈ s.rstPin, b = false) : ∀ b ∈ s.next.rstPin, b = false := by
  cases hw : s.waiting with
  | nil =>
    rw [(next_of_last hw).1]
    exact fun b hb => h b (List.mem_of_mem_tail hb)
  | cons q qs =>
    rw [(next_of_waiting hw).1]
    exact h

/-- In a step without reset a port's history and record keep all they hold. -/
theorem next_history_grows {s : State} {m : Nat} {p q : Port} (hrst : s.rst = false) (hp : s.ports[m]? = some p)
    (hq : s.next.ports[m]? = some q) : p.history <+: q.history ∧ p.answers <+: q.answers := by
  rw [next_ports_getElem?, hp, hrst] at hq
  obtain rfl := Option.some.inj hq
  split
  · exact ⟨portCycle_false_history_grows m p, portCycle_false_answers_grow m p⟩
  · exact ⟨List.prefix_rfl, List.prefix_rfl⟩

theorem iterate_next_ports_length (n : Nat) (s : State) : (State.next^[n] s).ports.length = s.ports.length := by
  induction n with
  | zero => rfl
  | succ n ih => rw [Function.iterate_succ_apply', next_ports_length, ih]

theorem iterate_next_history_grows {m : Nat} {q : Port} (n : Nat) : ∀ {s : State} {p : Port},
    (∀ b ∈ s.rstPin, b = false) → s.ports[m]? = some p → (State.next^[n] s).ports[m]? = some q →
    p.history <+: q.history ∧ p.answers <+: q.answers := by
  induction n with
  | zero =>
    intro s p _ hp hq
    obtain rfl := Option.some.inj (hp.symm.trans hq)
    exact ⟨List.prefix_rfl, List.prefix_rfl⟩
  | succ n ih =>
    intro s p hpin hp hq
    obtain ⟨p', hp'⟩ : ∃ p', s.next.ports[m]? = some p' := ⟨_, by rw [next_ports_getElem?, hp, Option.map_some]⟩
    obtain ⟨hh, ha⟩ := next_history_grows (rst_of_noReset hpin) hp hp'
    obtain ⟨hh', ha'⟩ := ih (next_noReset hpin) hp' hq
    exact ⟨hh.trans hh', ha.trans ha'⟩

/-- Settles O57, by induction on the steps. -/
theorem historyOnlyGrows : Obligations.HistoryOnlyGrows := by
  intro n s t hpin hrun
  obtain rfl := Host.Outcome.next.inj ((run_eq_iterate n s).symm.trans hrun)
  exact ⟨iterate_next_ports_length n s, fun m p q hp hq => iterate_next_history_grows n hpin hp hq⟩

end Sys2Proof.Machine
end

section
/-! Presentation after exactly `LATENCY` cycles (30_encoding.md R66). -/

namespace Sys2Proof.Machine

variable {q : Port} {r : Response} {d : Nat} {before : List (Option Response)}

theorem Port.Awaits.answers_length_le (h : q.Awaits r d before) : q.answers.length ≤ before.length := by
  obtain ⟨older, newer, -, rfl⟩ := h
  simp

/-- The clock edge brings the response one cycle nearer, and a response accepted meanwhile joins behind it. -/
theorem Port.Awaits.edge (h : q.Awaits r (d + 1) before) (no : Nat) : (q.edge no).Awaits r d before := by
  obtain ⟨older, newer, hq, hbefore⟩ := h
  have htick : q.tick.inflight = older.map (fun f => { f with due := f.due - 1 }) ++ ⟨r, d⟩ ::
      newer.map (fun f => { f with due := f.due - 1 }) := by
    simp [hq]
  have htaken : (q.edge no).answers ++ (older.map (fun f => { f with due := f.due - 1 })).map (fun f => some f.rsp) =
      before := by
    rw [edge_answers, List.map_map]
    exact hbefore
  obtain hin | ⟨-, req, hin⟩ := edge_inflight_cases no q
  · exact ⟨_, _, hin.trans htick, htaken⟩
  · exact ⟨_, _, by rw [hin, htick, List.append_assoc, List.cons_append], htaken⟩

/-- A response accepted at the edge is `LATENCY` cycles away, behind the whole history. -/
theorem edge_awaits_accepted {p : Port} {req : Request} (ho : p.offered = some req) (hr : p.tick.ready = true)
    (no : Nat) :
    (p.edge no).Awaits (execResponse req (Config.selUndef no p.draws)) Config.latency p.history := by
  rw [edge_of_accepted ho hr]
  exact ⟨p.tick.inflight, [], rfl, tick_history p⟩

/-- The presentation of an older response leaves the response where it is among the host's lines. -/
theorem Port.Awaits.deliver_of_pos (h : q.Awaits r (d + 1) before) : q.deliver.Awaits r (d + 1) before := by
  obtain ⟨older, newer, hq, hbefore⟩ := h
  obtain ⟨r', fs, hdue⟩ | hnot := deliver_cases q
  · rw [deliver_of_due hdue]
    cases older with
    | nil =>
      rw [hq, List.nil_append, List.cons.injEq, InFlight.mk.injEq] at hdue
      omega
    | cons f fs' =>
      obtain ⟨rfl, rfl⟩ := List.cons.inj (hdue.symm.trans hq)
      exact ⟨fs', newer, rfl, by rw [← hbefore]; simp⟩
  · rw [deliver_of_not_due hnot]
    exact ⟨older, newer, hq, hbefore⟩

/-- The response that is due is presented; since the responses in flight are due in their order, it is the oldest. -/
theorem Port.Awaits.deliver_of_due (h : q.Awaits r 0 before)
    (hsorted : q.inflight.Pairwise (fun f g => f.due < g.due)) :
    q.deliver.out = some r ∧ q.deliver.answers = before ++ [some r] := by
  obtain ⟨older, newer, hq, rfl⟩ := h
  obtain rfl : older = [] := by
    rw [hq, List.pairwise_append] at hsorted
    refine List.eq_nil_iff_forall_not_mem.mpr fun f hf => ?_
    exact absurd (hsorted.2.2 f hf ⟨r, 0⟩ (by simp)) (Nat.not_lt_zero _)
  rw [Machine.deliver_of_due (fs := newer) hq, List.map_nil, List.append_nil]
  exact ⟨rfl, rfl⟩

/-- The whole wait of a response that stands `d` cycles away after the edge. -/
theorem awaits_iterate {p : Port} {no : Nat} (h : (p.edge no).Awaits r d before) :
    ∀ k, k ≤ d → (((portCycle false no)^[k] p).edge no).Awaits r (d - k) before := by
  intro k
  induction k with
  | zero => exact fun _ => h
  | succ k ih =>
    intro hk
    have hwait := ih (Nat.le_of_succ_le hk)
    rw [show d - k = d - (k + 1) + 1 by omega] at hwait
    rw [Function.iterate_succ_apply', portCycle_false]
    exact hwait.deliver_of_pos.edge no

theorem presented_after_wait {p : Port} {no : Nat} (hinv : p.Inv) (h : (p.edge no).Awaits r d before) :
    ((portCycle false no)^[d + 1] p).out = some r ∧ ((portCycle false no)^[d + 1] p).answers = before ++ [some r] := by
  have hwait := awaits_iterate h d le_rfl
  rw [Nat.sub_self] at hwait
  rw [Function.iterate_succ_apply', portCycle_false]
  exact hwait.deliver_of_due (edge_due_sorted (iterate_portCycle_inv hinv no d) no)

theorem answers_length_le_of_wait {p : Port} {no k : Nat} (h : (p.edge no).Awaits r d before) (hk : k ≤ d) :
    ((portCycle false no)^[k] p).answers.length ≤ before.length := by
  rw [← edge_answers no]
  exact (awaits_iterate h k hk).answers_length_le

/-- Settles O56: the accepted response waits from its edge on, in each port alone; and `portCycle_false_out_cases` of
every port. -/
theorem responseAfterLatency : Obligations.ResponseAfterLatency := by
  refine ⟨fun s m p req hinv hstart hpin hp ho hr => ⟨?presented, fun k t q hk hrun hq => ?notEarlier⟩,
    fun s hstart hrst => ⟨s.cycled, runCycles_one s, fun m p q hp hq => ?_⟩⟩
  case presented =>
    obtain ⟨t, hrun, -, -⟩ := runCycles_spec (Config.latency + 1) hstart
    refine ⟨t, _, hrun, by rw [runCycles_getElem? hstart hrun, hp, Option.map_some], ?_⟩
    rw [portAfter_of_noReset m _ hpin]
    exact presented_after_wait (hinv.ports_inv p (List.mem_of_getElem? hp)) (edge_awaits_accepted ho hr m)
  case notEarlier =>
    have hpin' : ∀ b ∈ s.rstPin.take k, b = false := fun b hb =>
      hpin b ((List.take_subset_take_left s.rstPin (Nat.le_succ_of_le hk)) hb)
    rw [runCycles_getElem? hstart hrun, hp, Option.map_some, portAfter_of_noReset m k hpin'] at hq
    obtain rfl := Option.some.inj hq
    exact answers_length_le_of_wait (edge_awaits_accepted ho hr m) hk
  · rw [(cycled_spec hstart).2.2, List.getElem?_mapIdx, hp, hrst] at hq
    obtain rfl := Option.some.inj hq
    exact portCycle_false_out_cases m p

end Sys2Proof.Machine
end

section
/-! Counting by bytes and parts (42_word_popcount.md R144, R145). -/

namespace Sys2Proof.Machine

/-! ## Bytes -/

/-- The set bits below bit `n` of byte `j` are those below its first bit and those within the byte. -/
theorem rank_byteOf (x : Word) (j : Nat) {n : Nat} (hn : n ≤ 8) :
    rank x (8 * j + n) = rank x (8 * j) + rank (byteOf x j) n := by
  induction n with
  | zero => simp
  | succ n ih =>
    rw [← Nat.add_assoc, rank_succ, ih (by omega), rank_succ, byteOf_getLsbD,
      decide_eq_true (show n < 8 by omega), Bool.true_and, Nat.add_assoc]

theorem rank_bytes_succ (x : Word) (j : Nat) : rank x (8 * (j + 1)) = rank x (8 * j) + popcount (byteOf x j) :=
  rank_byteOf x j le_rfl

theorem ltCnt_byte_toNat (b : Byte) : (ltCnt b.toNat).toNat = popcount b := by
  have hle : popcount b ≤ 8 := popcount_le b
  rw [ltCnt, BitVec.ofNat_toNat, BitVec.setWidth_eq, BitVec.toNat_ofNat]
  omega

/-- The fold over the low `n` bytes counts the bits below `8n`. -/
theorem cntFold_eq_rank (n : Nat) (x : Word) : cntFold n x = rank x (8 * n) := by
  induction n with
  | zero => rfl
  | succ n ih =>
    have hsucc : cntFold (n + 1) x = cntFold n x + (ltCnt (byteOf x n).toNat).toNat := by
      simp [cntFold, List.range_succ]
    rw [hsucc, ih, ltCnt_byte_toNat, rank_bytes_succ]

/-- Settles O11: all three counts are ranks at a byte's end. -/
theorem byteTableFoldCounts : Obligations.ByteTableFoldCounts := by
  intro x
  refine ⟨cntFold_eq_rank 8 x, ?_, ?_⟩
  · rw [cntFold_eq_rank, popcount_lowHalf, rank_eq_countPositions]
  · rw [cntFold_eq_rank, rank_bytes_succ, Nat.mul_zero, rank_zero, Nat.zero_add]

/-! ## Masks and complements -/

theorem countPositions_and_lt (f : Nat → Bool) {k n : Nat} (h : k ≤ n) :
    countPositions n (fun p => f p && decide (p < k)) = countPositions k f := by
  induction n, h using Nat.le_induction with
  | base => exact countPositions_congr fun p hp => by simp [hp]
  | succ n hkn ih => simp [countPositions_succ, ih, hkn.not_gt]

theorem countPositions_add_not (n : Nat) (f : Nat → Bool) :
    countPositions n f + countPositions n (fun p => !f p) = n := by
  induction n with
  | zero => rfl
  | succ n ih =>
    have hone : (f n).toNat + (!f n).toNat = 1 := by cases f n <;> rfl
    simp only [countPositions_succ]
    omega

theorem popcount_and_loSet (x : Word) {k : Nat} (hk : k ≤ 64) :
    popcount (x &&& loSet k) = countPositions k (fun p => x.getLsbD p) := by
  rw [popcount_eq_countPositions, ← countPositions_and_lt _ hk]
  exact countPositions_congr fun p hp => by rw [BitVec.getLsbD_and, loSet_getLsbD k hp]

theorem popcount_add_popcount_not (x : Word) : popcount x + popcount (~~~x) = 64 := by
  have hnot : popcount (~~~x) = countPositions 64 (fun p => !x.getLsbD p) := by
    rw [popcount_eq_countPositions]
    exact countPositions_congr fun p hp => by simp [hp]
  rw [hnot, popcount_eq_countPositions, countPositions_add_not]

/-- Settles O12: the masks are `lo_set[32]` and `lo_set[8]`. -/
theorem popcountLaws : Obligations.PopcountLaws := by
  intro x
  have h32 : (0xFFFFFFFF : Word) = loSet 32 := rfl
  have h8 : (0xFF : Word) = loSet 8 := rfl
  refine ⟨popcount_le x, popcount_le _, popcount_le _, ?_, ?_, popcount_add_popcount_not x⟩
  · rw [h32, popcount_and_loSet x (by decide), popcount_lowHalf]
  · rw [h8, popcount_and_loSet x (by decide), popcount_byteOf]
    simp only [Nat.mul_zero, Nat.zero_add]

end Sys2Proof.Machine
end

section
/-! The ends of the set bits, and their enumeration (43_bit_locate.md R156, 46_select_within_word.md R194). -/

namespace Sys2Proof.Machine

variable {w : Nat} {x : BitVec w}

theorem rank_eq_of_clear {m n : Nat} (hmn : m ≤ n) (h : ∀ q, m ≤ q → q < n → x.getLsbD q = false) :
    rank x n = rank x m := by
  induction n, hmn using Nat.le_induction with
  | base => rfl
  | succ n hmn ih =>
    rw [rank_succ, h n hmn (Nat.lt_succ_self n), ih fun q hq hqn => h q hq (by omega)]
    rfl

/-- The lowest set bit is the first, and up to the highest one there are all. -/
theorem rank_loPos (h : x ≠ 0) : rank x (loPos x + 1) = 1 := by
  obtain ⟨-, hbit, hbelow⟩ := loPos_spec h
  rw [rank_succ, hbit, rank_eq_of_clear (Nat.zero_le _) fun q _ hq => hbelow q hq]
  rfl

theorem rank_hiPos (h : x ≠ 0) : rank x (hiPos x + 1) = popcount x := by
  obtain ⟨hlt, -, habove⟩ := hiPos_spec h
  exact (rank_eq_of_clear hlt fun q hq _ => habove q hq).symm

theorem rank_le_popcount {n : Nat} (h : n ≤ w) : rank x n ≤ popcount x := rank_mono x h

theorem one_le_popcount (h : x ≠ 0) : 1 ≤ popcount x :=
  (rank_loPos h).symm.trans_le (rank_le_popcount (loPos_spec h).1)

theorem loPos_le_hiPos (h : x ≠ 0) : loPos x ≤ hiPos x := by
  by_contra hlt
  have hclear := (loPos_spec h).2.2 _ (Nat.not_le.mp hlt)
  rw [(hiPos_spec h).2.1] at hclear
  cases hclear

theorem loPos_eq_hiPos_iff (h : x ≠ 0) : loPos x = hiPos x ↔ popcount x = 1 := by
  rw [← rank_hiPos h]
  constructor
  · intro heq
    rw [← heq, rank_loPos h]
  · intro hone
    exact rank_inj (loPos_spec h).2.1 (hiPos_spec h).2.1 (by rw [rank_loPos h, hone])

/-- Settles O17: the position laws, and the ranks of the two ends. -/
theorem loAtMostHi : Obligations.LoAtMostHi := by
  intro x h
  obtain ⟨hhi, hhibit, hhiabove⟩ := hiPos_spec h
  obtain ⟨hlo, hlobit, hlobelow⟩ := loPos_spec h
  exact ⟨⟨Nat.le_of_lt_succ hhi, hhibit, hhiabove⟩, ⟨Nat.le_of_lt_succ hlo, hlobit, hlobelow⟩, loPos_le_hiPos h,
    loPos_eq_hiPos_iff h⟩

theorem selPos_lt_selPos {i j : Nat} (hi : 1 ≤ i) (hij : i < j) (hj : j ≤ popcount x) :
    selPos x i < selPos x j := by
  obtain ⟨-, -, hri⟩ := selPos_spec x hi (hij.le.trans hj)
  obtain ⟨-, -, hrj⟩ := selPos_spec x (hi.trans hij.le) hj
  by_contra hle
  have := rank_mono x (Nat.add_le_add_right (Nat.not_lt.mp hle) 1)
  omega

/-- A set bit is the one selected by the count up to it. -/
theorem getLsbD_iff_selPos (p : Nat) :
    x.getLsbD p = true ↔ ∃ i, 1 ≤ i ∧ i ≤ popcount x ∧ selPos x i = p := by
  constructor
  · intro hp
    have hpw : p < w := by
      by_contra hge
      rw [BitVec.getLsbD_of_ge x p (Nat.not_lt.mp hge)] at hp
      cases hp
    have hone : 1 ≤ rank x (p + 1) := by rw [rank_succ, hp]; exact Nat.le_add_left 1 _
    exact ⟨rank x (p + 1), hone, rank_le_popcount hpw, selPos_unique hone (rank_le_popcount hpw) hp rfl⟩
  · rintro ⟨i, hi, hle, rfl⟩
    exact (selPos_spec x hi hle).2.1

/-- Settles O30: the ends are the set bits with the first and the last count. -/
theorem selEnumeratesSetBits : Obligations.SelEnumeratesSetBits := by
  intro x
  refine ⟨fun i j hi hij hj => selPos_lt_selPos hi hij hj, getLsbD_iff_selPos, fun h => ⟨?_, ?_⟩⟩
  · exact selPos_unique le_rfl (one_le_popcount h) (loPos_spec h).2.1 (rank_loPos h)
  · exact selPos_unique (one_le_popcount h) le_rfl (hiPos_spec h).2.1 (rank_hiPos h)

end Sys2Proof.Machine
end

section
/-! The source's algorithms for LO and HI (43_bit_locate.md R153, R154), and the de Bruijn table (41_constant_tables.md
R101, R102, R111, R112). -/

namespace Sys2Proof.Machine

/-! ## The isolated bit -/

theorem one_shiftLeft_eq_twoPow (p : Nat) : (1 : Word) <<< p = BitVec.twoPow 64 p := rfl

/-- Negation keeps the lowest set bit and complements the bits above it. -/
theorem isolate_eq_shift {x : Word} (h : x ≠ 0) : x &&& -x = (1 : Word) <<< loPos x := by
  obtain ⟨hlt, hbit, hbelow⟩ := loPos_spec h
  apply BitVec.eq_of_getLsbD_eq
  intro p hp
  rw [BitVec.getLsbD_and, BitVec.getLsbD_neg, one_shiftLeft_eq_twoPow, BitVec.getLsbD_twoPow]
  rcases Nat.lt_trichotomy p (loPos x) with hless | rfl | hmore
  · simp [hbelow p hless, hless.ne']
  · have hnone : ¬ ∃ j < loPos x, x.getLsbD j = true := by
      rintro ⟨j, hj, hset⟩
      rw [hbelow j hj] at hset
      cases hset
    simp [hbit, hnone, hlt]
  · have hsome : ∃ j < p, x.getLsbD j = true := ⟨loPos x, hmore, hbit⟩
    simp [hsome, hp, hmore.ne]

/-- Settles O15: the table inverts the index of the isolated bit; the zero word has the index of bit 0. -/
theorem loDeBruijnAgrees : Obligations.LoDeBruijnAgrees := by
  intro x
  by_cases h : x = 0
  · have hidx : deBruijnIdx ((0 : Word) &&& -0) = deBruijnIdx ((1 : Word) <<< 0) := by decide
    rw [h, loPos_zero, loDeBruijn, hidx, ltDeBruijnToIdx_inverse 0 (by decide)]
  · rw [loDeBruijn, isolate_eq_shift h, ltDeBruijnToIdx_inverse _ (loPos_spec h).1]

theorem deBruijnIdx_shift (p : Nat) : deBruijnIdx ((1 : Word) <<< p) = ((deBruijn64 <<< p) >>> 58).toNat := by
  rw [deBruijnIdx, one_shiftLeft_eq_twoPow, BitVec.twoPow_mul_eq_shiftLeft]

theorem deBruijnIdx_lt (v : Word) : deBruijnIdx v < 64 := by
  rw [deBruijnIdx, BitVec.toNat_ushiftRight, Nat.shiftRight_eq_div_pow]
  have := (v * deBruijn64).isLt
  omega

/-- The index of the bit at position `p`, among the 64 there are. -/
def bitIndex (p : Fin 64) : Fin 64 := ⟨deBruijnIdx ((1 : Word) <<< p.val), deBruijnIdx_lt _⟩

theorem bitIndex_injective : Function.Injective bitIndex := by
  intro p q hpq
  have hidx : deBruijnIdx ((1 : Word) <<< p.val) = deBruijnIdx ((1 : Word) <<< q.val) := Fin.mk.inj hpq
  exact Fin.ext (by rw [← ltDeBruijnToIdx_inverse p p.isLt, hidx, ltDeBruijnToIdx_inverse q q.isLt])

/-- The 64 indexes are distinct and below 64, so every one of them is taken. -/
theorem exists_deBruijnIdx_eq {k : Nat} (hk : k < 64) : ∃ p, p < 64 ∧ deBruijnIdx ((1 : Word) <<< p) = k := by
  obtain ⟨p, hp⟩ := Finite.surjective_of_injective bitIndex_injective ⟨k, hk⟩
  exact ⟨p, p.isLt, Fin.mk.inj hp⟩

theorem zext_ltDeBruijnToIdx {p : Nat} (hp : p < 64) :
    zext (ltDeBruijnToIdx (deBruijnIdx ((1 : Word) <<< p))) = BitVec.ofNat 64 p := by
  apply BitVec.eq_of_toNat_eq
  rw [zext, BitVec.toNat_setWidth, ltDeBruijnToIdx_inverse p hp, BitVec.toNat_ofNat]

/-- Settles O34: an index of the constant shifted by `p` is that of bit `p`. -/
theorem trdDeBruijnReads : Obligations.TrdDeBruijnReads := by
  intro a b cin s
  refine ⟨decodeRequest_trd .deBruijn64 a b cin, decodeRequest_trd .ltDeBruijnToIdx a b cin,
    exec_ofTable_of_lt .deBruijn64 (by decide) s, fun p hp => ?_, fun k hk => ?_⟩
  · have hidx : (((0x0218A392CD3D5DBF : Word) <<< p) >>> 58).toNat = deBruijnIdx ((1 : Word) <<< p) :=
      (deBruijnIdx_shift p).symm
    have hread := exec_ofTable_of_lt .ltDeBruijnToIdx (hidx.trans_lt (deBruijnIdx_lt _)) s
    rwa [hidx, tblRead, zext_ltDeBruijnToIdx hp] at hread
  · obtain ⟨p, hp, hidx⟩ := exists_deBruijnIdx_eq hk
    exact ⟨p, hp, BitVec.eq_of_toNat_eq ((deBruijnIdx_shift p).symm.trans hidx)⟩

/-! ## The highest byte -/

theorem hiPos_unique {w : Nat} {x : BitVec w} {p : Nat} (hp : x.getLsbD p = true)
    (habove : ∀ q, p < q → x.getLsbD q = false) : hiPos x = p := by
  have hx : x ≠ 0 := by
    rintro rfl
    simp at hp
  obtain ⟨-, hbit, hclear⟩ := hiPos_spec hx
  rcases Nat.lt_trichotomy (hiPos x) p with h | h | h
  · rw [hclear p h] at hp
    cases hp
  · exact h
  · rw [habove _ h] at hbit
    cases hbit

theorem ltHi_byte_toNat (b : Byte) : (ltHi b.toNat).toNat = hiPos b := by
  have hlt : hiPos b < 256 := by
    by_cases h : b = 0
    · rw [h, hiPos_zero]
      decide
    · exact (hiPos_spec h).1.trans (by decide)
  rw [ltHi, BitVec.ofNat_toNat, BitVec.setWidth_eq, BitVec.toNat_ofNat, Nat.mod_eq_of_lt hlt]

/-- A bit of a word as a bit of one of its bytes. -/
theorem getLsbD_eq_byteOf (x : Word) (p : Nat) : x.getLsbD p = (byteOf x (p / 8)).getLsbD (p % 8) := by
  rw [byteOf_getLsbD, Nat.div_add_mod, decide_eq_true (Nat.mod_lt p (by decide)), Bool.true_and]

theorem exists_byte_ne_zero {x : Word} (h : x ≠ 0) : ∃ j, j < 8 ∧ (byteOf x j != 0) = true := by
  obtain ⟨p, hp, hbit⟩ := exists_set_bit h
  refine ⟨p / 8, by omega, bne_iff_ne.mpr fun h0 => ?_⟩
  rw [getLsbD_eq_byteOf, h0] at hbit
  simp at hbit

/-- The highest set bit stands in the highest nonzero byte. -/
theorem hiByBytes_eq_of_ne_zero {x : Word} (h : x ≠ 0) : hiByBytes x = hiPos x := by
  obtain ⟨-, hbyte, hclear⟩ := lastPos_spec (exists_byte_ne_zero h)
  rw [hiByBytes, ltHi_byte_toNat]
  generalize lastPos 8 (fun j => byteOf x j != 0) = j at hbyte hclear
  obtain ⟨hlt, hbit, habove⟩ := hiPos_spec (bne_iff_ne.mp hbyte)
  refine (hiPos_unique ?_ fun q hq => ?_).symm
  · rw [byteOf_getLsbD, Bool.and_eq_true] at hbit
    exact hbit.2
  · by_cases hq64 : q < 64
    · rw [getLsbD_eq_byteOf]
      rcases Nat.lt_or_ge j (q / 8) with hj | hj
      · have hzero : byteOf x (q / 8) = 0 := by simpa using hclear _ hj (by omega)
        rw [hzero]
        simp
      · obtain rfl : j = q / 8 := by omega
        exact habove _ (by omega)
    · exact BitVec.getLsbD_of_ge x q (Nat.not_lt.mp hq64)

/-- Settles O16: the highest nonzero byte holds the highest set bit; the zero word has none. -/
theorem hiByBytesAgrees : Obligations.HiByBytesAgrees := by
  intro x
  by_cases h : x = 0
  · rw [h, hiPos_zero]
    rfl
  · exact hiByBytes_eq_of_ne_zero h

end Sys2Proof.Machine
end

section
/-! The laws of the windows in one word (44_pair_counter.md R166, 45_pair_mapper.md R182), as facts about counting. -/

namespace Sys2Proof.Machine

/-! ## Counting -/

/-- Every position shows one of the four pairs of values. -/
theorem countPositions_pairs (n : Nat) (f g : Nat → Bool) :
    countPositions n (fun i => f i && g i) + countPositions n (fun i => f i && !g i) +
      countPositions n (fun i => !f i && g i) + countPositions n (fun i => !f i && !g i) = n := by
  induction n with
  | zero => rfl
  | succ n ih =>
    have hone : (f n && g n).toNat + (f n && !g n).toNat + (!f n && g n).toNat + (!f n && !g n).toNat = 1 := by
      cases f n <;> cases g n <;> rfl
    simp only [countPositions_succ]
    omega

theorem countPositions_mono {n : Nat} {f g : Nat → Bool} (h : ∀ p, p < n → f p = true → g p = true) :
    countPositions n f ≤ countPositions n g := by
  induction n with
  | zero => simp
  | succ n ih =>
    have hlast : (f n).toNat ≤ (g n).toNat := Bool.toNat_le_toNat (h n (Nat.lt_succ_self n))
    have := ih fun p hp => h p (by omega)
    simp only [countPositions_succ]
    omega

theorem popcount_and_le (x y : Word) : popcount (x &&& y) ≤ popcount x := by
  rw [popcount_eq_countPositions, popcount_eq_countPositions]
  refine countPositions_mono fun p _ hp => ?_
  rw [BitVec.getLsbD_and, Bool.and_eq_true] at hp
  exact hp.1

/-! ## The counts -/

theorem popcount_m00 (a : Word) (c : Bool) :
    popcount (m00 a c) = countPositions 64 (fun i => !bitBefore a c i && !a.getLsbD i) := by
  rw [popcount_eq_countPositions]
  exact countPositions_congr fun _ => m00_getLsbD a c

/-- Rises and falls alternate, so that they tell the last bit from the carry. -/
theorem countPositions_rises_falls (a : Word) (c : Bool) (n : Nat) :
    countPositions n (fun i => !bitBefore a c i && a.getLsbD i) + c.toNat =
      countPositions n (fun i => bitBefore a c i && !a.getLsbD i) + (bitBefore a c n).toNat := by
  induction n with
  | zero => rfl
  | succ n ih =>
    have hturn : (!bitBefore a c n && a.getLsbD n).toNat + (bitBefore a c n).toNat =
        (bitBefore a c n && !a.getLsbD n).toNat + (a.getLsbD n).toNat := by
      cases bitBefore a c n <;> cases a.getLsbD n <;> rfl
    simp only [countPositions_succ, bitBefore_succ]
    omega

/-- The mask that keeps the high position of every pair. -/
theorem oddMask_getLsbD {p : Nat} (hp : p < 64) :
    (0xAAAAAAAAAAAAAAAA : Word).getLsbD p = decide (p % 2 = 1) := by
  revert p
  decide

/-- The "11" windows at odd positions are the aligned pairs. -/
theorem popcount_odd_m11 (a : Word) (c : Bool) :
    popcount (m11 a c &&& 0xAAAAAAAAAAAAAAAA) = popcount (alignedPairs a) := by
  have hbit : ∀ p, p < 64 → (m11 a c &&& 0xAAAAAAAAAAAAAAAA).getLsbD p =
      (bitBefore a c p && a.getLsbD p && decide (p % 2 = 1)) := fun p hp => by
    rw [BitVec.getLsbD_and, m11_getLsbD a c hp, oddMask_getLsbD hp]
  have heven : ∀ k, k < 32 → (m11 a c &&& 0xAAAAAAAAAAAAAAAA).getLsbD (2 * k) = false := fun k hk => by
    rw [hbit _ (by omega)]
    simp
  have hodd : ∀ k, k < 32 → (m11 a c &&& 0xAAAAAAAAAAAAAAAA).getLsbD (2 * k + 1) =
      (a.getLsbD (2 * k) && a.getLsbD (2 * k + 1)) := fun k hk => by
    rw [hbit _ (by omega)]
    simp [bitBefore_succ, Nat.add_mod]
  rw [popcount_eq_countPositions, countPositions_two_mul 32, countPositions_congr heven, countPositions_congr hodd,
    countPositions_false, Nat.zero_add, popcount_alignedPairs]

/-- Settles O22: every window shows one of four pairs, rises and falls alternate, and the odd "11" windows are the
aligned pairs. -/
theorem pairCountLaws : Obligations.PairCountLaws := by
  intro x c
  refine ⟨?_, ?_, (popcount_odd_m11 x c).symm, (popcount_odd_m11 x c).symm.trans_le (popcount_and_le _ _)⟩
  · rw [popcount_m11, popcount_m10, popcount_m01, popcount_m00, countPositions_pairs]
  · have hends := countPositions_rises_falls x c 64
    rw [← popcount_m10, ← popcount_m01, bitBefore_succ] at hends
    omega

/-! ## The maps -/

theorem m10_and_m01 (x : Word) (c : Bool) : m10 x c &&& m01 x c = 0 := by
  apply BitVec.eq_of_getLsbD_eq
  intro i hi
  rw [BitVec.getLsbD_and, m10_getLsbD x c hi, m01_getLsbD x c hi, BitVec.ofNat_eq_ofNat, BitVec.getLsbD_zero]
  cases bitBefore x c i <;> simp

theorem m10_or_m01 (x : Word) (c : Bool) : m10 x c ||| m01 x c = x ^^^ bitsBefore x c := by
  apply BitVec.eq_of_getLsbD_eq
  intro i hi
  rw [BitVec.getLsbD_or, BitVec.getLsbD_xor, m10_getLsbD x c hi, m01_getLsbD x c hi, bitsBefore_getLsbD x c hi]
  cases bitBefore x c i <;> simp

theorem bitsBefore_eq (x : Word) (c : Bool) : bitsBefore x c = (x <<< 1) ||| (if c then 1 else 0) := by
  cases c <;> rfl

theorem execResponse_cnt11c (a b : Word) (c : Bool) (d : Word) :
    execResponse ⟨0x07, a, b, c⟩ d = ⟨zextNat (popcount (m11 a c)), a.getLsbD 63, .ok⟩ := rfl

theorem execResponse_cnt10c (a b : Word) (c : Bool) (d : Word) :
    execResponse ⟨0x08, a, b, c⟩ d = ⟨zextNat (popcount (m10 a c)), a.getLsbD 63, .ok⟩ := rfl

theorem execResponse_cnt01c (a b : Word) (c : Bool) (d : Word) :
    execResponse ⟨0x09, a, b, c⟩ d = ⟨zextNat (popcount (m01 a c)), a.getLsbD 63, .ok⟩ := rfl

theorem execResponse_map10 (a b : Word) (c : Bool) (d : Word) :
    execResponse ⟨0x0A, a, b, c⟩ d = ⟨m10 a c, false, .ok⟩ := rfl

theorem execResponse_map01 (a b : Word) (c : Bool) (d : Word) :
    execResponse ⟨0x0B, a, b, c⟩ d = ⟨m01 a c, false, .ok⟩ := rfl

/-- Settles O26: the responses are the two masks, and the counts are their popcounts. -/
theorem mapLaws : Obligations.MapLaws := by
  intro x c d
  rw [execResponse_map10, execResponse_map01, execResponse_cnt10c, execResponse_cnt01c, ← bitsBefore_eq]
  exact ⟨m10_and_m01 x c, m10_or_m01 x c, (zextNat_popcount_toNat le_rfl _).symm,
    (zextNat_popcount_toNat le_rfl _).symm⟩

end Sys2Proof.Machine
end

section
/-! Streams of words (44_pair_counter.md R165, 45_pair_mapper.md R183): the marks of a stream are, word by word, the
marks of its words, each read with the last bit of the word before it; a count of windows is a count of marks. -/

namespace Sys2Proof.Machine

/-- Does the window at bit `i` of `w`, read with the carry `c`, show `pq`? -/
def windowShows (p q : Bool) (w : Word) (c : Bool) (i : Nat) : Bool :=
  decide (bitBefore w c i = p ∧ w.getLsbD i = q)

theorem windowShows_true_true (w : Word) (c : Bool) (i : Nat) :
    windowShows true true w c i = (bitBefore w c i && w.getLsbD i) := by
  simp [windowShows]

theorem windowShows_true_false (w : Word) (c : Bool) (i : Nat) :
    windowShows true false w c i = (bitBefore w c i && !w.getLsbD i) := by
  simp [windowShows]

theorem windowShows_false_true (w : Word) (c : Bool) (i : Nat) :
    windowShows false true w c i = (!bitBefore w c i && w.getLsbD i) := by
  simp [windowShows]

/-! ## Marks of a stream -/

theorem marks_append (p q c : Bool) (xs ys : List Bool) :
    marks p q c (xs ++ ys) = marks p q c xs ++ marks p q (xs.getLastD c) ys := by
  induction xs generalizing c with
  | nil => rfl
  | cons x xs ih => simp only [List.cons_append, marks, ih, List.getLastD_cons]

theorem getLastD_bits (w : Word) (c : Bool) (n : Nat) :
    ((List.range n).map w.getLsbD).getLastD c = bitBefore w c n := by
  cases n with
  | zero => rfl
  | succ n => simp [List.range_succ, bitBefore_succ]

theorem marks_bits (p q : Bool) (w : Word) (c : Bool) (n : Nat) :
    marks p q c ((List.range n).map w.getLsbD) = (List.range n).map (windowShows p q w c) := by
  induction n with
  | zero => rfl
  | succ n ih =>
    rw [List.range_succ, List.map_append, List.map_append, marks_append, ih, getLastD_bits]
    rfl

theorem streamBits_cons (w : Word) (ws : List Word) :
    streamBits (w :: ws) = (List.range 64).map w.getLsbD ++ streamBits ws := rfl

theorem marks_streamBits_cons (p q c : Bool) (w : Word) (ws : List Word) :
    marks p q c (streamBits (w :: ws)) =
      (List.range 64).map (windowShows p q w c) ++ marks p q (w.getLsbD 63) (streamBits ws) := by
  rw [streamBits_cons, marks_append, marks_bits, getLastD_bits, bitBefore_succ]

/-! ## Counts of a stream -/

theorem windows_eq_count (p q c : Bool) (bs : List Bool) : windows p q c bs = (marks p q c bs).count true := by
  induction bs generalizing c with
  | nil => rfl
  | cons b bs ih =>
    by_cases h : c = p ∧ b = q <;> simp [windows, marks, ih, h, Nat.add_comm]

theorem count_map_range (f : Nat → Bool) (n : Nat) : ((List.range n).map f).count true = countPositions n f := by
  induction n with
  | zero => rfl
  | succ n ih =>
    rw [List.range_succ, List.map_append, List.count_append, ih, countPositions_succ]
    cases h : f n <;> simp [h]

theorem windows_streamBits_cons (p q c : Bool) (w : Word) (ws : List Word) :
    windows p q c (streamBits (w :: ws)) =
      countPositions 64 (windowShows p q w c) + windows p q (w.getLsbD 63) (streamBits ws) := by
  rw [windows_eq_count, marks_streamBits_cons, List.count_append, count_map_range, ← windows_eq_count]

/-! ## Chaining -/

/-- An operation that counts the windows of a word and carries its last bit out counts those of a stream. -/
theorem chainedCount_eq_windows {cmd : BitVec 8} {p q : Bool}
    (hy : ∀ w c, (execResponse ⟨cmd, w, 0, c⟩ 0).y.toNat = countPositions 64 (windowShows p q w c))
    (hcout : ∀ w c, (execResponse ⟨cmd, w, 0, c⟩ 0).cout = w.getLsbD 63) (c : Bool) (ws : List Word) :
    chainedCount cmd c ws = windows p q c (streamBits ws) := by
  induction ws generalizing c with
  | nil => rfl
  | cons w ws ih => rw [windows_streamBits_cons, chainedCount, hy, hcout, ih]

/-- Settles O23, for the three carry counts. -/
theorem chainedCountsCountStream : Obligations.ChainedCountsCountStream := by
  intro c ws
  refine ⟨chainedCount_eq_windows (fun w c => ?_) (fun _ _ => rfl) c ws,
    chainedCount_eq_windows (fun w c => ?_) (fun _ _ => rfl) c ws,
    chainedCount_eq_windows (fun w c => ?_) (fun _ _ => rfl) c ws⟩
  · rw [execResponse_cnt11c, zextNat_popcount_toNat le_rfl, popcount_m11, funext (windowShows_true_true w c)]
  · rw [execResponse_cnt10c, zextNat_popcount_toNat le_rfl, popcount_m10, funext (windowShows_true_false w c)]
  · rw [execResponse_cnt01c, zextNat_popcount_toNat le_rfl, popcount_m01, funext (windowShows_false_true w c)]

/-- An operation that marks the windows of a word marks those of a stream. -/
theorem streamBits_chainedMap {cmd : BitVec 8} {p q : Bool}
    (hy : ∀ w c i, i < 64 → (execResponse ⟨cmd, w, 0, c⟩ 0).y.getLsbD i = windowShows p q w c i) (c : Bool)
    (ws : List Word) : streamBits (chainedMap cmd c ws) = marks p q c (streamBits ws) := by
  induction ws generalizing c with
  | nil => rfl
  | cons w ws ih =>
    rw [chainedMap, streamBits_cons, marks_streamBits_cons, ih,
      List.map_congr_left fun i hi => hy w c i (List.mem_range.mp hi)]

/-- Settles O27, for the two maps. -/
theorem chainedMapsMarkStream : Obligations.ChainedMapsMarkStream := by
  intro c ws
  refine ⟨streamBits_chainedMap (fun w c i hi => ?_) c ws, streamBits_chainedMap (fun w c i hi => ?_) c ws⟩
  · rw [execResponse_map10, m10_getLsbD w c hi, windowShows_true_false]
  · rw [execResponse_map01, m01_getLsbD w c hi, windowShows_false_true]

end Sys2Proof.Machine
end

section
/-! Bytes of a word as lanes (41_constant_tables.md R109, R120; 46_select_within_word.md R193): where no lane of a sum
overflows, the lanes add up on their own. -/

namespace Sys2Proof.Machine

/-! ## Lanes of numbers -/

theorem mod_add_mod_lt_of_lanes {a b : Nat} (n : Nat) (h : ∀ j, j < n → a / 256 ^ j % 256 + b / 256 ^ j % 256 < 256) :
    a % 256 ^ n + b % 256 ^ n < 256 ^ n := by
  induction n with
  | zero => simp [Nat.mod_one]
  | succ n ih =>
    have hlow := ih fun j hj => h j (Nat.lt_succ_of_lt hj)
    have hhigh : 256 ^ n * (a / 256 ^ n % 256 + b / 256 ^ n % 256) ≤ 256 ^ n * 255 :=
      Nat.mul_le_mul_left _ (Nat.le_of_lt_succ (h n (Nat.lt_succ_self n)))
    rw [Nat.pow_succ, Nat.mod_mul, Nat.mod_mul]
    rw [Nat.mul_add] at hhigh
    omega

/-- Lane `j` of a sum, where no lane up to `j` overflows. -/
theorem lane_add {a b : Nat} {j : Nat} (h : ∀ i, i ≤ j → a / 256 ^ i % 256 + b / 256 ^ i % 256 < 256) :
    (a + b) / 256 ^ j % 256 = a / 256 ^ j % 256 + b / 256 ^ j % 256 := by
  have hlow := mod_add_mod_lt_of_lanes j fun i hi => h i hi.le
  rw [Nat.add_div_eq_of_add_mod_lt hlow, Nat.add_mod, Nat.mod_eq_of_lt (h j le_rfl)]

/-! ## Lanes of words -/

theorem byteOf_toNat (x : Word) (j : Nat) : (byteOf x j).toNat = x.toNat / 256 ^ j % 256 := by
  rw [byteOf, BitVec.extractLsb'_toNat, Nat.shiftRight_eq_div_pow, Nat.pow_mul]

theorem byteOf_add {x y : Word} (h : ∀ j, j < 8 → (byteOf x j).toNat + (byteOf y j).toNat < 256) {j : Nat}
    (hj : j < 8) : (byteOf (x + y) j).toNat = (byteOf x j).toNat + (byteOf y j).toNat := by
  simp only [byteOf_toNat] at h ⊢
  have hsum := mod_add_mod_lt_of_lanes 8 h
  have hx := x.isLt
  have hy := y.isLt
  rw [BitVec.toNat_add_of_lt (by omega), lane_add fun i hi => h i (hi.trans_lt hj)]

/-- The top bit of a lane. -/
theorem byteOf_top_bit (x : Word) (j : Nat) : x.getLsbD (8 * j + 7) = true ↔ 128 ≤ (byteOf x j).toNat := by
  have htop : (byteOf x j).msb = x.getLsbD (8 * j + 7) := by
    rw [BitVec.msb_eq_getLsbD_last, byteOf_getLsbD]
    rfl
  rw [← htop, BitVec.msb_eq_decide, decide_eq_true_iff]

theorem ofBytes_lt (bs : List Byte) : ofBytes bs < 256 ^ bs.length := by
  induction bs with
  | nil => simp [ofBytes]
  | cons b bs ih =>
    have := b.isLt
    rw [ofBytes, List.length_cons, Nat.pow_succ]
    omega

theorem ofBytes_lane (bs : List Byte) (j : Nat) : ofBytes bs / 256 ^ j % 256 = (bs.getD j 0).toNat := by
  induction bs generalizing j with
  | nil => simp [ofBytes]
  | cons b bs ih =>
    have hb := b.isLt
    cases j with
    | zero =>
      simp only [ofBytes, Nat.pow_zero, Nat.div_one, List.getD_cons_zero]
      omega
    | succ j =>
      have hshift : (b.toNat + 256 * ofBytes bs) / 256 = ofBytes bs := by omega
      rw [ofBytes, Nat.pow_succ', ← Nat.div_div_eq_div_mul, hshift, ih, List.getD_cons_succ]

/-- The word with the bytes `bs`. -/
theorem byteOf_ofBytes {bs : List Byte} (h : bs.length = 8) (j : Nat) :
    (byteOf (BitVec.ofNat 64 (ofBytes bs)) j).toNat = (bs.getD j 0).toNat := by
  have hlt := ofBytes_lt bs
  rw [h] at hlt
  rw [byteOf_toNat, BitVec.toNat_ofNat, show 2 ^ 64 = 256 ^ 8 by decide, Nat.mod_eq_of_lt hlt, ofBytes_lane]

/-! ## Thresholds (R109) -/

/-- The threshold word holds eight equal bytes. -/
theorem psOverflow_eq_ofBytes (i : Nat) :
    psOverflow i = BitVec.ofNat 64 (ofBytes (List.replicate 8 (BitVec.ofNat 8 (128 - i)))) := by
  have hbyte : (BitVec.ofNat 8 (128 - i)).toNat = 128 - i := by
    rw [BitVec.toNat_ofNat]
    omega
  refine congrArg (BitVec.ofNat 64) ?_
  simp only [List.replicate, ofBytes, hbyte]
  omega

theorem byteOf_psOverflow (i : Nat) {j : Nat} (hj : j < 8) : (byteOf (psOverflow i) j).toNat = 128 - i := by
  rw [psOverflow_eq_ofBytes, byteOf_ofBytes (List.length_replicate ..), List.getD_replicate _ hj, BitVec.toNat_ofNat]
  omega

variable {x : Word} {i j : Nat}

theorem byteOf_add_psOverflow (hx : ∀ j, j < 8 → (byteOf x j).toNat ≤ 64) (hj : j < 8) :
    (byteOf (x + psOverflow i) j).toNat = (byteOf x j).toNat + (128 - i) := by
  rw [byteOf_add _ hj, byteOf_psOverflow i hj]
  intro k hk
  have := hx k hk
  rw [byteOf_psOverflow i hk]
  omega

/-- Bit 7 of a lane tells whether its count reaches the threshold. -/
theorem top_bit_add_psOverflow (hx : ∀ j, j < 8 → (byteOf x j).toNat ≤ 64) (hi : i ≤ 64) (hj : j < 8) :
    (x + psOverflow i).getLsbD (8 * j + 7) = true ↔ i ≤ (byteOf x j).toNat := by
  rw [byteOf_top_bit, byteOf_add_psOverflow hx hj]
  omega

/-- Settles O40: no lane of such a sum reaches 256, so the lanes add up on their own. -/
theorem trdPsovfReads : Obligations.TrdPsovfReads := by
  intro a b cin s
  refine ⟨decodeRequest_trd .psOverflow a b cin, fun hb => ⟨psOverflow b.toNat, exec_ofTable_of_lt .psOverflow hb s,
    fun j hj => byteOf_psOverflow b.toNat hj, fun x hx j hj => ?_⟩⟩
  exact ⟨byteOf_add_psOverflow hx hj, top_bit_add_psOverflow hx (Nat.le_of_lt_succ hb) hj⟩

/-! ## The algorithm of running sums (R193) -/

theorem prefixSum_eq_rank (x : Word) (j : Nat) : prefixSum x j = rank x (8 * (j + 1)) := cntFold_eq_rank (j + 1) x

theorem byteOf_prefixSums (x : Word) (hj : j < 8) : (byteOf (prefixSums x) j).toNat = rank x (8 * (j + 1)) := by
  have hle : rank x (8 * (j + 1)) ≤ 64 := rank_le_popcount (x := x) (by omega) |>.trans (popcount_le x)
  rw [prefixSums, byteOf_ofBytes (by simp)]
  simp only [List.getD_eq_getElem?_getD, List.getElem?_map, List.getElem?_range hj, Option.map_some, Option.getD_some,
    BitVec.toNat_ofNat, prefixSum_eq_rank]
  omega

theorem byteOf_prefixSums_le (x : Word) (hj : j < 8) : (byteOf (prefixSums x) j).toNat ≤ 64 := by
  rw [byteOf_prefixSums x hj]
  exact (rank_le_popcount (x := x) (by omega)).trans (popcount_le x)

/-- The mask that keeps the top bit of every lane. -/
theorem topMask_getLsbD {p : Nat} (hp : p < 64) :
    (0x8080808080808080 : Word).getLsbD p = decide (p % 8 = 7) := by
  revert p
  decide

/-- The lanes whose count reaches `i`, marked at their top bits. -/
def reached (x : Word) (i : Nat) : Word := (prefixSums x + psOverflow i) &&& 0x8080808080808080

theorem reached_getLsbD_iff (hi : i ≤ 64) (hj : j < 8) :
    (reached x i).getLsbD (8 * j + 7) = true ↔ i ≤ rank x (8 * (j + 1)) := by
  rw [reached, BitVec.getLsbD_and, topMask_getLsbD (by omega), decide_eq_true (by omega), Bool.and_true,
    top_bit_add_psOverflow (fun k hk => byteOf_prefixSums_le x hk) hi hj, byteOf_prefixSums x hj]

theorem reached_getLsbD_false {p : Nat} (hp : p < 64) (h : p % 8 ≠ 7) : (reached x i).getLsbD p = false := by
  rw [reached, BitVec.getLsbD_and, topMask_getLsbD hp, decide_eq_false h, Bool.and_false]

/-- The first lane whose count reaches `i` is that of the byte with the `i`-th set bit. -/
theorem loPos_reached (hi : 1 ≤ i) (hle : i ≤ popcount x) : ∃ j, j < 8 ∧ loPos (reached x i) = 8 * j + 7 ∧
    rank x (8 * j) < i ∧ i ≤ rank x (8 * (j + 1)) := by
  have hi64 : i ≤ 64 := hle.trans (popcount_le x)
  have htop : (reached x i).getLsbD (8 * 7 + 7) = true := (reached_getLsbD_iff hi64 (by decide)).mpr hle
  have hne : reached x i ≠ 0 := by
    intro h0
    rw [h0] at htop
    cases htop
  obtain ⟨hlt, hbit, hbelow⟩ := loPos_spec hne
  generalize loPos (reached x i) = p at hlt hbit hbelow ⊢
  have hp : p = 8 * (p / 8) + 7 := by
    by_contra hmod
    rw [reached_getLsbD_false hlt (by omega)] at hbit
    cases hbit
  refine ⟨p / 8, by omega, hp, ?_, ?_⟩
  · rcases hk : p / 8 with _ | k
    · exact hi
    · by_contra hge
      have hset := (reached_getLsbD_iff (j := k) hi64 (by omega)).mpr (Nat.not_lt.mp hge)
      rw [hbelow _ (by omega)] at hset
      cases hset
  · rw [hp] at hbit
    exact (reached_getLsbD_iff hi64 (by omega)).mp hbit

/-- A set bit of a word is selected within its byte by what the count lacks before that byte. -/
theorem selPos_eq_byte (hi : rank x (8 * j) < i) (hle : i ≤ rank x (8 * (j + 1))) (hpop : i ≤ popcount x) :
    selPos x i = 8 * j + selPos (byteOf x j) (i - rank x (8 * j)) := by
  rw [rank_bytes_succ] at hle
  obtain ⟨hlt, hbit, hrank⟩ :=
    selPos_spec (byteOf x j) (show 1 ≤ i - rank x (8 * j) by omega) (show _ ≤ popcount (byteOf x j) by omega)
  rw [byteOf_getLsbD, Bool.and_eq_true] at hbit
  refine selPos_unique (by omega) hpop hbit.2 ?_
  rw [Nat.add_assoc, rank_byteOf x j hlt, hrank]
  omega

theorem ltSel_byte_toNat {b : Byte} {r : Nat} (hr : 1 ≤ r) (h : r ≤ popcount b) :
    (ltSel (256 * (r - 1) + b.toNat)).toNat = selPos b r := by
  have hbyte : BitVec.ofNat 8 b.toNat = b := by rw [BitVec.ofNat_toNat, BitVec.setWidth_eq]
  have hlt : selPos b r < 8 := (selPos_spec b hr h).1
  have hsucc : r - 1 + 1 = r := by omega
  rw [ltSel_of_le_popcount b.isLt (by rwa [hsucc, hbyte]), hsucc, hbyte, BitVec.toNat_ofNat]
  omega

/-- The count of the lane before `j`, which the algorithm takes as 0 for the first one. -/
theorem prefix_count_before (x : Word) (hj : j < 8) :
    (if j = 0 then 0 else (byteOf (prefixSums x) (j - 1)).toNat) = rank x (8 * j) := by
  cases j with
  | zero => rfl
  | succ k => rw [if_neg (Nat.succ_ne_zero k), Nat.add_sub_cancel, byteOf_prefixSums x (by omega)]

/-- Settles O31: the first lane that reaches the count is the byte, and `lt_sel` selects within it. -/
theorem selByBytesAgrees : Obligations.SelByBytesAgrees := by
  intro x i hi hle
  obtain ⟨j, hj, hlo, hbefore, hreach⟩ := loPos_reached hi hle
  have hlane : loPos (reached x i) >>> 3 = j := by
    rw [hlo, Nat.shiftRight_eq_div_pow]
    omega
  have hbyte : i - rank x (8 * j) ≤ popcount (byteOf x j) := by
    rw [rank_bytes_succ] at hreach
    omega
  have halg : selByBytes x i = 8 * j + (ltSel (256 * (i - rank x (8 * j) - 1) + (byteOf x j).toNat)).toNat := by
    rw [selByBytes, ← prefix_count_before x hj, ← hlane]
    rfl
  rw [halg, ltSel_byte_toNat (by omega) hbyte, selPos_eq_byte hbefore hreach hle]

end Sys2Proof.Machine
end
